-- ==== Sys2Proof/Word.lean ====
section
/-! DEFINITION. Bytes, machine words and register numbers. -/

namespace Sys2Proof

/-- A byte is 8 bits (00_scope.md R10). -/
abbrev Byte := BitVec 8

/-- A machine word of `w` bits: a register, a port slot (10_state.md R30, R40). The width is the parameter WORD_BITS
of 00_scope.md R8, so it is an argument of the type. -/
abbrev Word (w : Nat) := BitVec w

/-- A register number, 0 to 127 (10_state.md R30). -/
abbrev Reg := Fin 128

/-- A port number, 0 to 255 (10_state.md R40). -/
abbrev Port := Fin 256

/-- The program counter is the register named `.`, number 46 (10_state.md R33). -/
abbrev pcReg : Reg := 46

/-- The stack pointer is the register named `,`, number 44 (10_state.md R36). -/
abbrev spReg : Reg := 44

end Sys2Proof
end

