-- ==== Sys2Proof/Syntax.lean ====
section
/-! DEFINITION. The instructions of glyph-3op: one constructor for each of the 35 rows of opcode_table.json. -/

namespace Sys2Proof

/-- An instruction with its operands, registers already masked to 7 bits (10_state.md R31). The operands stand in the
order of the encoding, destination first (30_encoding.md R95). The six whitespace rows are six constructors (log 12). -/
inductive Instr where
  /-- ADD `+dab` (41_alu.md R144). -/
  | add (d a b : Reg)
  /-- SUB `-dab` (R145). -/
  | sub (d a b : Reg)
  /-- MUL `*dab` (R146). -/
  | mul (d a b : Reg)
  /-- DIV `/dab` (R147). -/
  | div (d a b : Reg)
  /-- MOD `%dab`, present when HAS_MOD (R148). -/
  | mod (d a b : Reg)
  /-- AND `&dab` (R149). -/
  | and (d a b : Reg)
  /-- OR `|dab` (R150). -/
  | or (d a b : Reg)
  /-- XOR `^dab` (R151). -/
  | xor (d a b : Reg)
  /-- SHL `<dab` (R152). -/
  | shl (d a b : Reg)
  /-- SHR `>dab` (R153). -/
  | shr (d a b : Reg)
  /-- NOT `~ds` (R154). -/
  | not (d src : Reg)
  /-- LDB `:'dv`, a literal byte (42_load_immediate.md R171). -/
  | ldb (d : Reg) (v : Byte)
  /-- LDX `:#dhl`, two hex-digit characters as they stand in the stream: a byte that is no digit is an instruction
  that halts, not an encoding that does not exist (R172). -/
  | ldx (d : Reg) (h l : Byte)
  /-- MOV `:=ds` (R173). -/
  | mov (d src : Reg)
  /-- HALT_BADMODE: `:` with an unknown sub-mode byte `m` (R174). -/
  | haltBadMode (m : Byte)
  /-- LD `@da` (43_memory_port.md R181). -/
  | ld (d a : Reg)
  /-- ST `!as` (R182). -/
  | st (a src : Reg)
  /-- IN `{dp` (R184). -/
  | inp (d p : Reg)
  /-- OUT `}ps` (R185). -/
  | out (p src : Reg)
  /-- JMP `.r` (44_control.md R200). -/
  | jmp (r : Reg)
  /-- JEQ `?=abt` (R202). -/
  | jeq (a b t : Reg)
  /-- JNE `?!abt` (R203). -/
  | jne (a b t : Reg)
  /-- JLT `?<abt` (R204). -/
  | jlt (a b t : Reg)
  /-- JGT `?>abt` (R205). -/
  | jgt (a b t : Reg)
  /-- HALT_BADCMP: `?` with an unknown comparison byte `c` (R208). -/
  | haltBadCmp (c : Byte)
  /-- CALL `;r` (R206). -/
  | call (r : Reg)
  /-- RET `,` (R207). -/
  | ret
  /-- HALT, the byte 0x00 (40_fetch_decode.md R125). -/
  | halt
  /-- SKIP, the space byte 0x20 (R123). -/
  | skipSpace
  /-- SKIP, the tab byte 0x09 (R123). -/
  | skipTab
  /-- SKIP, the newline byte 0x0A (R123). -/
  | skipNewline
  /-- SKIP, the vertical tab byte 0x0B (R123). -/
  | skipVerticalTab
  /-- SKIP, the form feed byte 0x0C (R123). -/
  | skipFormFeed
  /-- SKIP, the carriage return byte 0x0D (R123). -/
  | skipCarriageReturn
  /-- HALT_UNKNOWN: an opcode byte `o` that is not in the case table (R127). -/
  | haltUnknown (o : Byte)
deriving DecidableEq, Repr

/-- The row of opcode_table.json an instruction belongs to, by its mnemonic. -/
def Instr.mnemonic : Instr → String
  | .add _ _ _ => "ADD"
  | .sub _ _ _ => "SUB"
  | .mul _ _ _ => "MUL"
  | .div _ _ _ => "DIV"
  | .mod _ _ _ => "MOD"
  | .and _ _ _ => "AND"
  | .or _ _ _ => "OR"
  | .xor _ _ _ => "XOR"
  | .shl _ _ _ => "SHL"
  | .shr _ _ _ => "SHR"
  | .not _ _ => "NOT"
  | .ldb _ _ => "LDB"
  | .ldx _ _ _ => "LDX"
  | .mov _ _ => "MOV"
  | .haltBadMode _ => "HALT_BADMODE"
  | .ld _ _ => "LD"
  | .st _ _ => "ST"
  | .inp _ _ => "IN"
  | .out _ _ => "OUT"
  | .jmp _ => "JMP"
  | .jeq _ _ _ => "JEQ"
  | .jne _ _ _ => "JNE"
  | .jlt _ _ _ => "JLT"
  | .jgt _ _ _ => "JGT"
  | .haltBadCmp _ => "HALT_BADCMP"
  | .call _ => "CALL"
  | .ret => "RET"
  | .halt => "HALT"
  | .skipSpace => "SKIP"
  | .skipTab => "SKIP"
  | .skipNewline => "SKIP"
  | .skipVerticalTab => "SKIP"
  | .skipFormFeed => "SKIP"
  | .skipCarriageReturn => "SKIP"
  | .haltUnknown _ => "HALT_UNKNOWN"

/-- The length of an instruction in bytes, opcode included (30_encoding.md R94, R104). -/
def Instr.length : Instr → Nat
  | .add _ _ _ => 4
  | .sub _ _ _ => 4
  | .mul _ _ _ => 4
  | .div _ _ _ => 4
  | .mod _ _ _ => 4
  | .and _ _ _ => 4
  | .or _ _ _ => 4
  | .xor _ _ _ => 4
  | .shl _ _ _ => 4
  | .shr _ _ _ => 4
  | .not _ _ => 3
  | .ldb _ _ => 4
  | .ldx _ _ _ => 5
  | .mov _ _ => 4
  | .haltBadMode _ => 2
  | .ld _ _ => 3
  | .st _ _ => 3
  | .inp _ _ => 3
  | .out _ _ => 3
  | .jmp _ => 2
  | .jeq _ _ _ => 5
  | .jne _ _ _ => 5
  | .jlt _ _ _ => 5
  | .jgt _ _ _ => 5
  | .haltBadCmp _ => 2
  | .call _ => 2
  | .ret => 1
  | .halt => 1
  | .skipSpace => 1
  | .skipTab => 1
  | .skipNewline => 1
  | .skipVerticalTab => 1
  | .skipFormFeed => 1
  | .skipCarriageReturn => 1
  | .haltUnknown _ => 1

/-- The longest instruction (LDX, and the conditional jumps) has 5 bytes (30_encoding.md R104). -/
def maxInstrLength : Nat := 5

end Sys2Proof
end

