-- ==== Sys2Proof/WellFormed.lean ====
section
/-! DEFINITION. Which terms of Instr an instruction stream can denote. -/

namespace Sys2Proof

/-- The whitespace bytes (30_encoding.md R99, row SKIP). -/
def whitespaceBytes : List Byte := [0x20, 0x09, 0x0A, 0x0B, 0x0C, 0x0D]

/-- The first bytes that 30_encoding.md R99 lists as something other than an unknown opcode, `%` apart. -/
def knownFirstBytes : List Byte :=
  [0x00, 0x21, 0x26, 0x2A, 0x2B, 0x2C, 0x2D, 0x2E, 0x2F, 0x3A, 0x3B, 0x3C, 0x3E, 0x3F, 0x40, 0x5E, 0x7B, 0x7C, 0x7D,
    0x7E] ++ whitespaceBytes

/-- An opcode byte that is not in the case table (40_fetch_decode.md R127); `%` (0x25) is one exactly when HAS_MOD is
false (opcode_table.json, note of row MOD). -/
def isUnknownOpcode (hasMod : Bool) (o : Byte) : Bool :=
  !(knownFirstBytes.contains o) && !(hasMod && o == 0x25)

/-- A byte that selects no sub-mode of `:` (42_load_immediate.md R174). -/
def isBadMode (m : Byte) : Bool := !([0x27, 0x23, 0x3D].contains m)

/-- A byte that selects no comparison of `?` (44_control.md R208). -/
def isBadCmp (c : Byte) : Bool := !([0x3D, 0x21, 0x3C, 0x3E].contains c)

/-- Well-formed: the instruction's bytes decode to it. Only the fall-back rows carry a condition, on the byte they were
reached by, and MOD, which needs HAS_MOD. LDX carries none: a byte that is no hex digit halts (R172). -/
def Instr.wf (hasMod : Bool) : Instr → Bool
  | .add _ _ _ => true
  | .sub _ _ _ => true
  | .mul _ _ _ => true
  | .div _ _ _ => true
  | .mod _ _ _ => hasMod
  | .and _ _ _ => true
  | .or _ _ _ => true
  | .xor _ _ _ => true
  | .shl _ _ _ => true
  | .shr _ _ _ => true
  | .not _ _ => true
  | .ldb _ _ => true
  | .ldx _ _ _ => true
  | .mov _ _ => true
  | .haltBadMode m => isBadMode m
  | .ld _ _ => true
  | .st _ _ => true
  | .inp _ _ => true
  | .out _ _ => true
  | .jmp _ => true
  | .jeq _ _ _ => true
  | .jne _ _ _ => true
  | .jlt _ _ _ => true
  | .jgt _ _ _ => true
  | .haltBadCmp c => isBadCmp c
  | .call _ => true
  | .ret => true
  | .halt => true
  | .skipSpace => true
  | .skipTab => true
  | .skipNewline => true
  | .skipVerticalTab => true
  | .skipFormFeed => true
  | .skipCarriageReturn => true
  | .haltUnknown o => isUnknownOpcode hasMod o

end Sys2Proof
end

