-- ==== Sys2Proof/Decode.lean ====
section
/-! DEFINITION. The decoder from bytes, the encoder, and the opcode table's rows as data. -/

namespace Sys2Proof

/-- Why a byte string does not decode. No byte string is illegal (30_encoding.md R103): the only reason is that it ends
before its instruction does, which a fetch at or beyond the memory bound makes happen (40_fetch_decode.md R122). -/
inductive DecodeError where
  | truncated
deriving DecidableEq, Repr

/-- What decoding answers: an instruction with the bytes after it, or the reason there is none. -/
abbrev Decoded := Except DecodeError (Instr × List Byte)

/-- `reg(b) = b & 0x7F`, the register an operand byte names (10_state.md R31, R32). -/
def regOf (b : Byte) : Reg := ⟨(b &&& 0x7F#8).toNat, by
  rw [BitVec.toNat_and]; exact Nat.lt_of_le_of_lt Nat.and_le_right (by decide)⟩

/-- The operand byte that names a register, bit 7 clear. -/
def regByte (r : Reg) : Byte := BitVec.ofNat 8 r.val

/-- Format F1 after the opcode: one register byte (30_encoding.md R94). -/
def takeReg1 (f : Reg → Instr) : List Byte → Decoded
  | r :: rest => .ok (f (regOf r), rest)
  | _ => .error .truncated

/-- Format F2 after the opcode (and FM after its selector): two register bytes (R94). -/
def takeReg2 (f : Reg → Reg → Instr) : List Byte → Decoded
  | q :: r :: rest => .ok (f (regOf q) (regOf r), rest)
  | _ => .error .truncated

/-- Format F3 after the opcode (and FC after its selector): three register bytes (R94). -/
def takeReg3 (f : Reg → Reg → Reg → Instr) : List Byte → Decoded
  | p :: q :: r :: rest => .ok (f (regOf p) (regOf q) (regOf r), rest)
  | _ => .error .truncated

/-- Format FL after the selector: a register byte and a byte taken whole (R94, R97). -/
def takeRegByte (f : Reg → Byte → Instr) : List Byte → Decoded
  | d :: v :: rest => .ok (f (regOf d) v, rest)
  | _ => .error .truncated

/-- Format FX after the selector: a register byte and two bytes taken whole (R94, R98). -/
def takeRegByteByte (f : Reg → Byte → Byte → Instr) : List Byte → Decoded
  | d :: h :: l :: rest => .ok (f (regOf d) h l, rest)
  | _ => .error .truncated

/-- The bytes after `:` (0x3A): the second-byte map of 30_encoding.md R100. An unknown selector ends the instruction. -/
def decodeColon : List Byte → Decoded
  | [] => .error .truncated
  | m :: rest =>
    if m = 0x27 then takeRegByte .ldb rest
    else if m = 0x23 then takeRegByteByte .ldx rest
    else if m = 0x3D then takeReg2 .mov rest
    else .ok (.haltBadMode m, rest)

/-- The bytes after `?` (0x3F): the second-byte map of 30_encoding.md R101. An unknown selector ends the instruction. -/
def decodeQuestion : List Byte → Decoded
  | [] => .error .truncated
  | c :: rest =>
    if c = 0x3D then takeReg3 .jeq rest
    else if c = 0x21 then takeReg3 .jne rest
    else if c = 0x3C then takeReg3 .jlt rest
    else if c = 0x3E then takeReg3 .jgt rest
    else .ok (.haltBadCmp c, rest)

/-- The decoder: the first-byte map of 30_encoding.md R99, each byte compared whole (R96), in the order of its rows. -/
def decode (hasMod : Bool) : List Byte → Decoded
  | [] => .error .truncated
  | op :: rest =>
    if op = 0x00 then .ok (.halt, rest)
    else if op = 0x09 then .ok (.skipTab, rest)
    else if op = 0x0A then .ok (.skipNewline, rest)
    else if op = 0x0B then .ok (.skipVerticalTab, rest)
    else if op = 0x0C then .ok (.skipFormFeed, rest)
    else if op = 0x0D then .ok (.skipCarriageReturn, rest)
    else if op = 0x20 then .ok (.skipSpace, rest)
    else if op = 0x21 then takeReg2 .st rest
    else if op = 0x25 ∧ hasMod = true then takeReg3 .mod rest
    else if op = 0x26 then takeReg3 .and rest
    else if op = 0x2A then takeReg3 .mul rest
    else if op = 0x2B then takeReg3 .add rest
    else if op = 0x2C then .ok (.ret, rest)
    else if op = 0x2D then takeReg3 .sub rest
    else if op = 0x2E then takeReg1 .jmp rest
    else if op = 0x2F then takeReg3 .div rest
    else if op = 0x3A then decodeColon rest
    else if op = 0x3B then takeReg1 .call rest
    else if op = 0x3C then takeReg3 .shl rest
    else if op = 0x3E then takeReg3 .shr rest
    else if op = 0x3F then decodeQuestion rest
    else if op = 0x40 then takeReg2 .ld rest
    else if op = 0x5E then takeReg3 .xor rest
    else if op = 0x7B then takeReg2 .inp rest
    else if op = 0x7C then takeReg3 .or rest
    else if op = 0x7D then takeReg2 .out rest
    else if op = 0x7E then takeReg2 .not rest
    else .ok (.haltUnknown op, rest)

/-- The encoder: the byte patterns of 30_encoding.md R94 and R99-R101, ignored bits clear. -/
def encode : Instr → List Byte
  | .add d a b => [0x2B, regByte d, regByte a, regByte b]
  | .sub d a b => [0x2D, regByte d, regByte a, regByte b]
  | .mul d a b => [0x2A, regByte d, regByte a, regByte b]
  | .div d a b => [0x2F, regByte d, regByte a, regByte b]
  | .mod d a b => [0x25, regByte d, regByte a, regByte b]
  | .and d a b => [0x26, regByte d, regByte a, regByte b]
  | .or d a b => [0x7C, regByte d, regByte a, regByte b]
  | .xor d a b => [0x5E, regByte d, regByte a, regByte b]
  | .shl d a b => [0x3C, regByte d, regByte a, regByte b]
  | .shr d a b => [0x3E, regByte d, regByte a, regByte b]
  | .not d src => [0x7E, regByte d, regByte src]
  | .ldb d v => [0x3A, 0x27, regByte d, v]
  | .ldx d h l => [0x3A, 0x23, regByte d, h, l]
  | .mov d src => [0x3A, 0x3D, regByte d, regByte src]
  | .haltBadMode m => [0x3A, m]
  | .ld d a => [0x40, regByte d, regByte a]
  | .st a src => [0x21, regByte a, regByte src]
  | .inp d p => [0x7B, regByte d, regByte p]
  | .out p src => [0x7D, regByte p, regByte src]
  | .jmp r => [0x2E, regByte r]
  | .jeq a b t => [0x3F, 0x3D, regByte a, regByte b, regByte t]
  | .jne a b t => [0x3F, 0x21, regByte a, regByte b, regByte t]
  | .jlt a b t => [0x3F, 0x3C, regByte a, regByte b, regByte t]
  | .jgt a b t => [0x3F, 0x3E, regByte a, regByte b, regByte t]
  | .haltBadCmp c => [0x3F, c]
  | .call r => [0x3B, regByte r]
  | .ret => [0x2C]
  | .halt => [0x00]
  | .skipSpace => [0x20]
  | .skipTab => [0x09]
  | .skipNewline => [0x0A]
  | .skipVerticalTab => [0x0B]
  | .skipFormFeed => [0x0C]
  | .skipCarriageReturn => [0x0D]
  | .haltUnknown o => [o]

/-! ## The opcode table as data (30_encoding.md R102) -/

/-- One row of opcode_table.json: its first bytes, byte 0 first, each with the mask it is compared under. -/
structure TableRow where
  mnemonic : String
  /-- Match byte and mask byte of each key byte. -/
  key : List (Byte × Byte)
  priority : Nat
deriving DecidableEq, Repr

/-- A row of priority 1 with a one-byte key and a full mask. -/
def rowOn1 (mnemonic : String) (b : Byte) : TableRow := ⟨mnemonic, [(b, 0xFF)], 1⟩

/-- A row of priority 1 with a two-byte key and a full mask. -/
def rowOn2 (mnemonic : String) (b c : Byte) : TableRow := ⟨mnemonic, [(b, 0xFF), (c, 0xFF)], 1⟩

/-- The rows with a one-byte key and a full mask, but for MOD. -/
def tableRows1 : List TableRow :=
  [rowOn1 "ADD" 0x2B, rowOn1 "SUB" 0x2D, rowOn1 "MUL" 0x2A, rowOn1 "DIV" 0x2F, rowOn1 "AND" 0x26, rowOn1 "OR" 0x7C,
   rowOn1 "XOR" 0x5E, rowOn1 "SHL" 0x3C, rowOn1 "SHR" 0x3E, rowOn1 "NOT" 0x7E, rowOn1 "LD" 0x40, rowOn1 "ST" 0x21,
   rowOn1 "IN" 0x7B, rowOn1 "OUT" 0x7D, rowOn1 "JMP" 0x2E, rowOn1 "CALL" 0x3B, rowOn1 "RET" 0x2C, rowOn1 "HALT" 0x00]

/-- The six whitespace rows. -/
def tableRowsSkip : List TableRow :=
  [rowOn1 "SKIP" 0x20, rowOn1 "SKIP" 0x09, rowOn1 "SKIP" 0x0A, rowOn1 "SKIP" 0x0B, rowOn1 "SKIP" 0x0C,
   rowOn1 "SKIP" 0x0D]

/-- The rows with a two-byte key. -/
def tableRows2 : List TableRow :=
  [rowOn2 "LDB" 0x3A 0x27, rowOn2 "LDX" 0x3A 0x23, rowOn2 "MOV" 0x3A 0x3D, rowOn2 "JEQ" 0x3F 0x3D,
   rowOn2 "JNE" 0x3F 0x21, rowOn2 "JLT" 0x3F 0x3C, rowOn2 "JGT" 0x3F 0x3E]

/-- The fall-back rows of the two groups, whose second byte is not compared, and the default row, which compares none. -/
def tableRowsFallback : List TableRow :=
  [⟨"HALT_BADMODE", [(0x3A, 0xFF), (0x00, 0x00)], 2⟩, ⟨"HALT_BADCMP", [(0x3F, 0xFF), (0x00, 0x00)], 2⟩,
   ⟨"HALT_UNKNOWN", [(0x00, 0x00)], 3⟩]

/-- The table's rows; MOD is "present only when HAS_MOD = true". -/
def opcodeTable (hasMod : Bool) : List TableRow :=
  (if hasMod then [rowOn1 "MOD" 0x25] else []) ++ tableRows1 ++ tableRowsSkip ++ tableRows2 ++ tableRowsFallback

/-- Whether the first bytes of a string match a row's key bytes under their masks. -/
def keyHits : List (Byte × Byte) → List Byte → Bool
  | [], _ => true
  | _ :: _, [] => false
  | (m, mask) :: key, b :: bs => (b &&& mask) == m && keyHits key bs

/-- The matching row of lowest priority number among those listed: the first of the least. -/
def bestRow (bs : List Byte) : List TableRow → Option TableRow
  | [] => none
  | row :: rows =>
    if keyHits row.key bs then
      match bestRow bs rows with
      | none => some row
      | some other => if other.priority < row.priority then some other else some row
    else bestRow bs rows

/-- "A byte string decodes as the matching row of lowest `priority` number" (R102). -/
def tableRowOf (hasMod : Bool) (bs : List Byte) : Option TableRow := bestRow bs (opcodeTable hasMod)

/-! ## The host's table words -/

/-- Byte `k` of a number, byte 0 its least significant. -/
def byteOfNat (w k : Nat) : Byte := BitVec.ofNat 8 (w / 256 ^ k)

/-- The byte of a two-byte key that opens a group: `:` or `?`. -/
def isGroupByte (b : Byte) : Bool := b == 0x3A || b == 0x3F

/-- The five bytes, lowest address first, of an instruction whose bits are `w`, bits above `nbits` zero. The first byte
is bits 7 to 0, and so on, but for the rows with a two-byte key: opcode_table.json numbers those with the group byte
`:` or `?`, byte 0, in bits 15 to 8 and the selector in bits 7 to 0 (30_encoding.md R102: "byte 0 of the instruction as
the most significant byte"), so the two are exchanged (log 9). -/
def tableBytes (nbits w : Nat) : List Byte :=
  let v := w % 2 ^ nbits
  let bytes := [byteOfNat v 0, byteOfNat v 1, byteOfNat v 2, byteOfNat v 3, byteOfNat v 4]
  if v < 65536 ∧ isGroupByte (byteOfNat v 1) = true then [byteOfNat v 1, byteOfNat v 0, 0, 0, 0] else bytes

/-- The instruction the decoder reads from a table word, with the table's HAS_MOD = true. -/
def decodeTableWord (nbits w : Nat) : Option Instr :=
  match decode true (tableBytes nbits w) with
  | .ok (i, _) => some i
  | .error .truncated => none

end Sys2Proof
end

