-- ==== Sys2Proof/Config.lean ====
section
/-! DEFINITION. The implementation parameters of 00_scope.md R8 and the free value of the port hooks. -/

namespace Sys2Proof

/-- What an out-of-range fetch does to pc: the two values of OOB_FETCH_PC (40_fetch_decode.md R122; I1, D16). -/
inductive OobFetchPc where
  | unchanged
  | incremented
deriving DecidableEq, Repr

/-- The admissible values of WORD_BITS and MEM_BITS (00_scope.md R9): W a multiple of 8 and at least 8; M at least 1 and
at most W. -/
abbrev AdmissibleSizes (wordBits memBits : Nat) : Prop :=
  wordBits % 8 = 0 ∧ 8 ≤ wordBits ∧ 1 ≤ memBits ∧ memBits ≤ wordBits

/-- The parameters of 00_scope.md R8 that the spec does not fix. A machine carries one such record in its State and
no step changes it, so that a statement about every state is a statement about every value of the parameters.
Mark: DESIGN CHOICE (log 1). -/
structure Config where
  /-- WORD_BITS, the width W of registers, ports and arithmetic. -/
  wordBits : Nat
  /-- MEM_BITS, the base-2 logarithm M of the store's size. -/
  memBits : Nat
  /-- HAS_MOD, whether opcode `%` exists. -/
  hasMod : Bool
  /-- OOB_FETCH_PC. -/
  oobFetchPc : OobFetchPc
  /-- READ_HOOK, whether the host installed a "port about to be read" hook (10_state.md R44). -/
  readHook : Bool
  /-- WRITE_HOOK, whether the host installed a "port was just written" hook (10_state.md R44). -/
  writeHook : Bool
  /-- No other sizes exist: "A model that admits other values is outside this spec" (R9; 92_eei_decisions.md D31). -/
  admissible : AdmissibleSizes wordBits memBits
deriving DecidableEq, Repr

/-- MEM_SIZE = 2^M bytes of Program Store (00_scope.md R8, 20_memory.md R60). -/
def Config.memSize (c : Config) : Nat := 2 ^ c.memBits

/-- STACK_BYTES = W/8, the bytes of one stack entry (00_scope.md R8, 20_memory.md R67). -/
def Config.stackBytes (c : Config) : Nat := c.wordBits / 8

/-- The values of the "this spec" column of 00_scope.md R8, with no hook installed
(95_test_vectors.md: "Hooks are absent unless the row says so"). -/
def Config.standard : Config where
  wordBits := 32
  memBits := 16
  hasMod := true
  oobFetchPc := .unchanged
  readHook := false
  writeHook := false
  admissible := by decide

/-- What a host hook does at one call (60_exceptions.md R225, R226, R228): it returns and leaves the slot, or returns
having written a word into the slot of the port it was called for, or never returns, having left the slot or written it.
A write hook changes nothing, so that its replies differ only in whether it returns. The spec gives a read hook the write
(R225) and the blocking (R228) and says nothing of both together: the model allows it. Mark: DESIGN CHOICE (log 18). -/
inductive HostReply where
  | keeps
  | writes (v : Nat)
  | blocks
  | writesThenBlocks (v : Nat)
deriving DecidableEq, Repr, Inhabited

/-- Whether a reply is that of a hook that never returns (60_exceptions.md R228). -/
def HostReply.neverReturns : HostReply → Bool
  | .keeps => false
  | .writes _ => false
  | .blocks => true
  | .writesThenBlocks _ => true

/-- The host's reply to a hook call that no entry of the state's script answers: a free value, one for each number of
calls made before (I7, I8: "a free draw", "a free choice at every hook invocation"). It has no body, so no proof can
use a value of it. Mark: DESIGN CHOICE (log 5). -/
opaque Config.freeReply : Nat → HostReply

end Sys2Proof
end

