-- ==== Sys2Proof/Machine/State.lean ====
section
/-! DEFINITION. The state of the core, all of it plain data; the reasons a step can stop; the state after reset. -/

namespace Sys2Proof.Machine

open Sys2Proof

/-- The Program Store (20_memory.md R60) as a list of address and byte pairs. Its canonical form is
`Memory.wf` in Machine/Memory.lean; an unlisted address reads as 0. -/
abbrev Memory := List Host.Cell

/-- A call of a port hook with its port number: the signals of the port hook interface (00_scope.md R7(2),
43_memory_port.md R186, R187). -/
inductive HookCall where
  /-- "port about to be read". -/
  | aboutToRead (n : Port)
  /-- "port was just written". -/
  | wasWritten (n : Port)
deriving DecidableEq, Repr

/-- The state of the core with the parameters it was built for. `x[46]` is pc and `x[44]` is sp (10_state.md R33, R36);
each stands once, in `regs`. The last three fields are the model's own (logs 3, 4, 5). -/
structure State where
  /-- The parameters of 00_scope.md R8; no step changes them (10_state.md R44). -/
  cfg : Config
  /-- The register file `x[0]` to `x[127]` (10_state.md R30). -/
  regs : Vector (Word cfg.wordBits) 128
  /-- The Program Store `MEM` (20_memory.md R60). -/
  mem : Memory
  /-- The port array `PORT[0]` to `PORT[255]` (10_state.md R40). -/
  ports : Vector (Word cfg.wordBits) 256
  /-- The halt flag `HALTED` (10_state.md R41). -/
  halted : Bool
  /-- The hook call that never returned, if one has not: the step it belongs to never ends (60_exceptions.md R228). -/
  blockedIn : Option HookCall
  /-- The hook calls made so far, newest first. -/
  signals : List HookCall
  /-- The host's coming replies to hook calls, next first; past its end they are `Config.freeReply`. -/
  hostScript : List HostReply
deriving DecidableEq, Repr

/-- A step never faults: "A model has no fault outcome for any instruction of glyph-3op" (60_exceptions.md R220).
So there is no reason to name, and no constructor: nobody raises one, which is safe and unsafe of nothing. -/
inductive Fault
deriving DecidableEq, Repr

/-- Why the model gives an instruction no meaning. -/
inductive Refusal where
  /-- The instruction has no meaning in this model yet, by its mnemonic; raised by an arm of `exec` only, and safe
  (the model stops where the hardware goes on). No arm raises it: every instruction has its meaning. -/
  | notModelled (mnemonic : String)
deriving DecidableEq, Repr

/-- The machine right after `init` (10_state.md R47, 70_reset_and_hazards.md R250), with the spec's parameter values, no
hook installed and nothing loaded into the zero-initialized store: every register 0 but sp = MEM_SIZE mod 2^W, every
port 0, HALTED = 0. -/
def State.reset : State where
  cfg := Config.standard
  regs := (Vector.replicate 128 0).set spReg (BitVec.ofNat Config.standard.wordBits Config.standard.memSize)
  mem := []
  ports := Vector.replicate 256 0
  halted := false
  blockedIn := none
  signals := []
  hostScript := []

end Sys2Proof.Machine
end

