-- ==== Sys2Proof/Machine/Memory.lean ====
section
/-! DEFINITION. The Program Store's cells: reading, writing, the canonical form, little-endian words. -/

namespace Sys2Proof.Machine

open Sys2Proof

/-- What an address that no entry lists reads as: "the host creates the store zero-initialized, so bytes it did not load
are 0" (10_state.md R47). -/
def unlistedByte : Byte := 0

/-- The byte at a cell. -/
def Memory.read : Memory → Nat → Byte
  | [], _ => unlistedByte
  | (a, b) :: rest, x => if a = x then b else Memory.read rest x

/-- Put an entry where its address stands in rising order. -/
def Memory.insert (x : Nat) (v : Byte) : Memory → Memory
  | [] => [(x, v)]
  | (a, b) :: rest => if x < a then (x, v) :: (a, b) :: rest else (a, b) :: Memory.insert x v rest

/-- Write the byte at a cell: the cell's old entry goes, and the new one stands in its place unless it says what an
unlisted address says. The canonical form is kept. -/
def Memory.write (m : Memory) (x : Nat) (v : Byte) : Memory :=
  if v = unlistedByte then m.filter (fun c => c.1 != x) else Memory.insert x v (m.filter (fun c => c.1 != x))

/-- The canonical form: addresses strictly rising, and no entry that says what an unlisted address says. -/
abbrev Memory.wf (m : Memory) : Prop :=
  m.Pairwise (fun c c' => c.1 < c'.1) ∧ ∀ c ∈ m, c.2 ≠ unlistedByte

/-- Every listed address is an index of a store of `size` bytes (20_memory.md R60). -/
abbrev Memory.within (m : Memory) (size : Nat) : Prop := ∀ c ∈ m, c.1 < size

/-- `MemRead(addr, n)` of 20_memory.md R64 over a store of `size` bytes: n bytes, each address wrapped separately, the
byte at the lowest address in bits 7 to 0. -/
def Memory.readLE (m : Memory) (size addr w : Nat) : Nat → Word w
  | 0 => 0
  | n + 1 => Memory.readLE m size addr w n ||| ((m.read ((addr + n) % size)).setWidth w <<< (8 * n))

/-- `MemWrite(addr, n, v)` of 20_memory.md R65 over a store of `size` bytes: the low 8n bits of v as n bytes, each
address wrapped separately, written from the lowest byte up. -/
def Memory.writeLE (m : Memory) (size addr : Nat) {w : Nat} (v : Word w) : Nat → Memory
  | 0 => m
  | n + 1 => (Memory.writeLE m size addr v n).write ((addr + n) % size) (v.extractLsb' (8 * n) 8)

/-- Copy bytes into a store of `size` bytes at consecutive addresses, dropping those past its end: the host's program
load (70_reset_and_hazards.md R252). -/
def Memory.load (m : Memory) (size : Nat) : Nat → List Byte → Memory
  | _, [] => m
  | a, b :: rest => Memory.load (if a < size then m.write a b else m) size (a + 1) rest

end Sys2Proof.Machine
end

