-- ==== Sys2Proof/Machine/Operands.lean ====
section
/-! DEFINITION. The operand forms of 30_encoding.md R92 and the accessors of the registers and ports they name. -/

namespace Sys2Proof.Machine

open Sys2Proof

/-- `x[r]`, a register read (00_scope.md R12). No register is hardwired (10_state.md R39). -/
def State.reg (s : State) (r : Reg) : Word s.cfg.wordBits := s.regs[r.val]

/-- `x[r] <- v`, a register write of `v mod 2^W` (R12). Register 46 is pc and register 44 is sp, so writing them
redirects execution and moves the stack (10_state.md R35, R38). -/
def State.setReg (s : State) (r : Reg) {w : Nat} (v : Word w) : State :=
  { s with regs := s.regs.set r.val (v.setWidth s.cfg.wordBits) }

/-- `pc`, register 46 (10_state.md R33). -/
def State.pc (s : State) : Word s.cfg.wordBits := s.reg pcReg

/-- `pc <- v` (00_scope.md R12). -/
def State.setPc (s : State) {w : Nat} (v : Word w) : State := s.setReg pcReg v

/-- `sp`, register 44 (10_state.md R36). -/
def State.sp (s : State) : Word s.cfg.wordBits := s.reg spReg

/-- `sp <- v`. -/
def State.setSp (s : State) {w : Nat} (v : Word w) : State := s.setReg spReg v

/-- The literal-byte operand: `zext_W(v)` (30_encoding.md R97). -/
def literalOperand (w : Nat) (v : Byte) : Word w := v.setWidth w

/-- `hexval(c)` (30_encoding.md R98): the value of a hex-digit character, none for any other byte. -/
def hexval (c : Byte) : Option Nat :=
  if 0x30 ≤ c ∧ c ≤ 0x39 then some (c.toNat - 0x30)
  else if 0x41 ≤ c ∧ c ≤ 0x46 then some (c.toNat - 0x41 + 10)
  else if 0x61 ≤ c ∧ c ≤ 0x66 then some (c.toNat - 0x61 + 10)
  else none

/-- The two-digit operand of `:#`: `16 * hexval(h) + hexval(l)`, none where either byte is no digit (R97, R98). -/
def hexOperand (h l : Byte) : Option Nat :=
  match hexval h, hexval l with
  | some x, some y => some (16 * x + y)
  | _, _ => none

/-- The store index of a data address: it wraps modulo MEM_SIZE (20_memory.md R61). -/
def State.dataAddress (s : State) {w : Nat} (a : Word w) : Nat := a.toNat % s.cfg.memSize

/-- The port a register's value names: it wraps modulo 256 (43_memory_port.md R183). -/
def portIndex {w : Nat} (v : Word w) : Port := ⟨v.toNat % 256, Nat.mod_lt _ (by decide)⟩

/-- `PORT[n]`. -/
def State.port (s : State) (n : Port) : Word s.cfg.wordBits := s.ports[n.val]

/-- `PORT[n] <- v`, reduced modulo 2^W (R10). -/
def State.setPort (s : State) (n : Port) {w : Nat} (v : Word w) : State :=
  { s with ports := s.ports.set n.val (v.setWidth s.cfg.wordBits) }

end Sys2Proof.Machine
end

