-- ==== Sys2Proof/Machine/Flags.lean ====
section
/-! DEFINITION. The core has no flags (10_state.md R42): what stands in their place is the direct comparison of two
registers by the conditional jump (44_control.md R201). -/

namespace Sys2Proof.Machine

open Sys2Proof

/-- The comparison bytes of `?` by name: `=`, `!`, `<`, `>` (30_encoding.md R101). -/
inductive Cmp where
  | eq
  | ne
  | lt
  | gt
deriving DecidableEq, Repr

/-- `Compare(c, u, v)`, unsigned (44_control.md R202-R205). -/
def Cmp.holds {w : Nat} : Cmp → Word w → Word w → Bool
  | .eq, u, v => u == v
  | .ne, u, v => !(u == v)
  | .lt, u, v => u.toNat < v.toNat
  | .gt, u, v => v.toNat < u.toNat

end Sys2Proof.Machine
end

