-- ==== Sys2Proof/Machine/Ops.lean ====
section
/-! DEFINITION. The operations the meanings share: memory, stack, ports and their hooks, halt, fetch. -/

namespace Sys2Proof.Machine

open Sys2Proof

/-! ## Memory and stack -/

/-- `MemRead(addr, n)` (20_memory.md R64). -/
def State.memRead (s : State) {w : Nat} (addr : Word w) (n : Nat) : Word s.cfg.wordBits :=
  s.mem.readLE s.cfg.memSize addr.toNat s.cfg.wordBits n

/-- `MemWrite(addr, n, v)` (20_memory.md R65). -/
def State.memWrite (s : State) {w : Nat} (addr : Word w) (n : Nat) {w' : Nat} (v : Word w') : State :=
  { s with mem := s.mem.writeLE s.cfg.memSize addr.toNat v n }

/-- Where sp stands after a push: W/8 lower, modulo 2^W (20_memory.md R67). -/
def State.pushedSp (s : State) : Word s.cfg.wordBits := s.sp - BitVec.ofNat s.cfg.wordBits s.cfg.stackBytes

/-- `Push(v)`: sp moves down first, then the word is stored there (20_memory.md R67). Nothing is checked. -/
def State.push (s : State) {w : Nat} (v : Word w) : State :=
  (s.setSp s.pushedSp).memWrite s.pushedSp s.cfg.stackBytes v

/-- The value `Pop()` returns: the W/8 bytes at sp (20_memory.md R68). -/
def State.popValue (s : State) : Word s.cfg.wordBits := s.memRead s.sp s.cfg.stackBytes

/-- The state `Pop()` leaves: sp moves up by W/8, modulo 2^W (20_memory.md R68). -/
def State.popState (s : State) : State := s.setSp (s.sp + BitVec.ofNat s.cfg.wordBits s.cfg.stackBytes)

/-! ## Halt: the core's only terminal event. It has no exceptions and nothing is saved (60_exceptions.md R220-R224) -/

/-- `halt()`: HALTED is set and nothing else changes (40_fetch_decode.md R126). -/
def State.halt (s : State) : State := { s with halted := true }

/-! ## Port hooks -/

/-- How a hook call ends. -/
inductive HookEnd where
  /-- The hook returned; the state it left. -/
  | returned (s : State)
  /-- The hook never returns; the state the core stays in (60_exceptions.md R228; log 3). -/
  | blocked (s : State)
deriving DecidableEq, Repr

/-- The host's reply to the next hook call: the script's first entry, or past its end a free value (log 5). -/
def State.hostReply (s : State) : HostReply :=
  match s.hostScript with
  | r :: _ => r
  | [] => Config.freeReply s.signals.length

/-- The state a hook sees: the call has been signalled, and its reply is no longer to come (60_exceptions.md R227). -/
def State.enterHook (s : State) (c : HookCall) : State :=
  { s with signals := c :: s.signals, hostScript := s.hostScript.tail }

/-- The state of a core whose hook `c` never returns. -/
def State.blockIn (s : State) (c : HookCall) : State := { s with blockedIn := some c }

/-- `ReadHook(n)`: it may leave PORT[n] or write any word into it, and nothing else; it may never return
(60_exceptions.md R225, R228; that it writes nothing else is an assumed host duty, log 6). That a hook which never returns
may have written PORT[n] first is the model's choice, the spec being silent on both together (DESIGN CHOICE, log 18). -/
def State.callReadHook (s : State) (n : Port) : HookEnd :=
  match s.hostReply with
  | .keeps => .returned (s.enterHook (.aboutToRead n))
  | .writes v => .returned ((s.enterHook (.aboutToRead n)).setPort n (BitVec.ofNat s.cfg.wordBits v))
  | .blocks => .blocked ((s.enterHook (.aboutToRead n)).blockIn (.aboutToRead n))
  | .writesThenBlocks v =>
    .blocked (((s.enterHook (.aboutToRead n)).setPort n (BitVec.ofNat s.cfg.wordBits v)).blockIn (.aboutToRead n))

/-- `WriteHook(n)`: it changes nothing, and may never return (60_exceptions.md R226, R228; log 6). -/
def State.callWriteHook (s : State) (n : Port) : HookEnd :=
  match s.hostReply with
  | .keeps => .returned (s.enterHook (.wasWritten n))
  | .writes _ => .returned (s.enterHook (.wasWritten n))
  | .blocks => .blocked ((s.enterHook (.wasWritten n)).blockIn (.wasWritten n))
  | .writesThenBlocks _ => .blocked ((s.enterHook (.wasWritten n)).blockIn (.wasWritten n))

/-- `PortRead(n)` up to its return: the hook first, once, if one is installed; the value is then `PORT[n]` of the state
it returned (43_memory_port.md R186). -/
def State.portRead (s : State) (n : Port) : HookEnd :=
  if s.cfg.readHook then s.callReadHook n else .returned s

/-- `PortWrite(n, v)`: the slot, then the hook, once, if one is installed (43_memory_port.md R187). -/
def State.portWrite (s : State) (n : Port) {w : Nat} (v : Word w) : HookEnd :=
  if s.cfg.writeHook then (s.setPort n v).callWriteHook n else .returned (s.setPort n v)

/-! ## Control flow -/

/-- pc <- target on a true comparison; otherwise pc stays at the next instruction (44_control.md R201). -/
def State.jumpIf (s : State) (taken : Bool) {w : Nat} (target : Word w) : State :=
  if taken then s.setPc target else s

/-! ## Fetch -/

/-- The bytes that up to `n` successive fetches from `pc` yield: each reads the store at pc and adds 1 to pc modulo 2^W,
and the first at or beyond the memory bound yields none and ends them (40_fetch_decode.md R121, R122). -/
def fetchBytes (size : Nat) (mem : Memory) {w : Nat} (pc : Word w) : Nat → List Byte
  | 0 => []
  | n + 1 => if size ≤ pc.toNat then [] else mem.read pc.toNat :: fetchBytes size mem (pc + 1) n

/-- The bytes an instruction at pc can fetch: as many as the longest instruction has, or those before the bound. -/
def State.fetchWindow (s : State) : List Byte := fetchBytes s.cfg.memSize s.mem s.pc maxInstrLength

/-- pc after `n` successful fetches (40_fetch_decode.md R121). -/
def State.advance (s : State) (n : Nat) : State := s.setPc (s.pc + BitVec.ofNat s.cfg.wordBits n)

/-- A fetch at or beyond the memory bound: halt, with pc unchanged or incremented as OOB_FETCH_PC says
(40_fetch_decode.md R122, R131). -/
def State.fetchOutOfRange (s : State) : State :=
  match s.cfg.oobFetchPc with
  | .unchanged => s.halt
  | .incremented => (s.advance 1).halt

/-- How the fetching part of a step ends. -/
inductive Fetched where
  /-- All bytes of an instruction; pc is the address after it (10_state.md R35). -/
  | instr (i : Instr) (s : State)
  /-- A fetch out of range; the step has ended with a halt. -/
  | outOfRange (s : State)
deriving DecidableEq, Repr

/-- Fetch and decode the instruction at pc (40_fetch_decode.md R121-R124). Where the bytes end before the instruction
does, every one of them was fetched and the next fetch is out of range. -/
def State.fetchInstr (s : State) : Fetched :=
  match decode s.cfg.hasMod s.fetchWindow with
  | .ok (i, rest) => .instr i (s.advance (s.fetchWindow.length - rest.length))
  | .error .truncated => .outOfRange (s.advance s.fetchWindow.length).fetchOutOfRange

/-- No step is taken while HALTED is 1 (40_fetch_decode.md R120), nor while a hook has not returned
(60_exceptions.md R228). -/
def State.stopped (s : State) : Bool := s.halted || s.blockedIn.isSome

/-- Place bytes where fetches from `pc` will find them, as far as the memory bound. -/
def placeBytes (size : Nat) {w : Nat} (pc : Word w) (mem : Memory) : List Byte → Memory
  | [] => mem
  | b :: rest => if size ≤ pc.toNat then mem else placeBytes size (pc + 1) (mem.write pc.toNat b) rest

end Sys2Proof.Machine
end

