-- ==== Sys2Proof/Machine/Alu.lean ====
section
/-! DEFINITION. Arithmetic, bitwise, shift and complement instructions (41_alu.md). Each reads its operand registers in
the state it is given and writes one register of it, so reads come before the write (R140, R141). -/

namespace Sys2Proof.Machine

open Sys2Proof

/-- The outcomes of a meaning. -/
abbrev Result := Host.Outcome State Fault Refusal

/-- The ten operations of `ALU(op, u, v)` (R155). -/
inductive AluOp where
  | add
  | sub
  | mul
  | div
  | mod
  | and
  | or
  | xor
  | shl
  | shr
deriving DecidableEq, Repr

/-- ADD: modulo 2^W (R144). -/
def aluAdd {w : Nat} (u v : Word w) : Word w := u + v

/-- SUB: modulo 2^W (R145). -/
def aluSub {w : Nat} (u v : Word w) : Word w := u - v

/-- MUL: the low W bits of the product (R146). -/
def aluMul {w : Nat} (u v : Word w) : Word w := u * v

/-- DIV: unsigned and truncating, 0 by a zero divisor (R147). -/
def aluDiv {w : Nat} (u v : Word w) : Word w := if v = 0 then 0 else u.udiv v

/-- MOD: the unsigned remainder, 0 (not the dividend) by a zero divisor (R148). -/
def aluMod {w : Nat} (u v : Word w) : Word w := if v = 0 then 0 else u.umod v

/-- AND (R149). -/
def aluAnd {w : Nat} (u v : Word w) : Word w := u &&& v

/-- OR (R150). -/
def aluOr {w : Nat} (u v : Word w) : Word w := u ||| v

/-- XOR (R151). -/
def aluXor {w : Nat} (u v : Word w) : Word w := u ^^^ v

/-- SHL: the amount is the whole word, and W or more gives 0 (R152). -/
def aluShl {w : Nat} (u v : Word w) : Word w := if w ≤ v.toNat then 0 else u <<< v.toNat

/-- SHR: logical; the amount is the whole word, and W or more gives 0 (R153). -/
def aluShr {w : Nat} (u v : Word w) : Word w := if w ≤ v.toNat then 0 else u >>> v.toNat

/-- NOT: every bit inverted (R154). -/
def aluNot {w : Nat} (u : Word w) : Word w := ~~~u

/-- `ALU(op, u, v)` (R155). -/
def alu {w : Nat} : AluOp → Word w → Word w → Word w
  | .add => aluAdd
  | .sub => aluSub
  | .mul => aluMul
  | .div => aluDiv
  | .mod => aluMod
  | .and => aluAnd
  | .or => aluOr
  | .xor => aluXor
  | .shl => aluShl
  | .shr => aluShr

/-- `+dab` (R144). -/
def execAdd (d a b : Reg) (s : State) : Result := .next (s.setReg d (alu .add (s.reg a) (s.reg b)))

/-- `-dab` (R145). -/
def execSub (d a b : Reg) (s : State) : Result := .next (s.setReg d (alu .sub (s.reg a) (s.reg b)))

/-- `*dab` (R146). -/
def execMul (d a b : Reg) (s : State) : Result := .next (s.setReg d (alu .mul (s.reg a) (s.reg b)))

/-- `/dab` (R147). -/
def execDiv (d a b : Reg) (s : State) : Result := .next (s.setReg d (alu .div (s.reg a) (s.reg b)))

/-- `%dab` (R148). The decoder yields it only when HAS_MOD is true (log 10). -/
def execMod (d a b : Reg) (s : State) : Result := .next (s.setReg d (alu .mod (s.reg a) (s.reg b)))

/-- `&dab` (R149). -/
def execAnd (d a b : Reg) (s : State) : Result := .next (s.setReg d (alu .and (s.reg a) (s.reg b)))

/-- `|dab` (R150). -/
def execOr (d a b : Reg) (s : State) : Result := .next (s.setReg d (alu .or (s.reg a) (s.reg b)))

/-- `^dab` (R151). -/
def execXor (d a b : Reg) (s : State) : Result := .next (s.setReg d (alu .xor (s.reg a) (s.reg b)))

/-- `<dab` (R152). -/
def execShl (d a b : Reg) (s : State) : Result := .next (s.setReg d (alu .shl (s.reg a) (s.reg b)))

/-- `>dab` (R153). -/
def execShr (d a b : Reg) (s : State) : Result := .next (s.setReg d (alu .shr (s.reg a) (s.reg b)))

/-- `~ds` (R154). -/
def execNot (d src : Reg) (s : State) : Result := .next (s.setReg d (aluNot (s.reg src)))

end Sys2Proof.Machine
end

