-- ==== Sys2Proof/Machine/Control.lean ====
section
/-! DEFINITION. Jump, conditional jump, call, return (44_control.md), halt and skip (40_fetch_decode.md). The pc a meaning
reads is the address after its instruction (10_state.md R35). -/

namespace Sys2Proof.Machine

open Sys2Proof

/-- `.r` (R200): the target is the whole register value; one at or beyond MEM_SIZE halts at the next fetch. -/
def execJmp (r : Reg) (s : State) : Result := .next (s.setPc (s.reg r))

/-- `?=abt` (R202). -/
def execJeq (a b t : Reg) (s : State) : Result := .next (s.jumpIf (Cmp.eq.holds (s.reg a) (s.reg b)) (s.reg t))

/-- `?!abt` (R203). -/
def execJne (a b t : Reg) (s : State) : Result := .next (s.jumpIf (Cmp.ne.holds (s.reg a) (s.reg b)) (s.reg t))

/-- `?<abt` (R204). -/
def execJlt (a b t : Reg) (s : State) : Result := .next (s.jumpIf (Cmp.lt.holds (s.reg a) (s.reg b)) (s.reg t))

/-- `?>abt` (R205). -/
def execJgt (a b t : Reg) (s : State) : Result := .next (s.jumpIf (Cmp.gt.holds (s.reg a) (s.reg b)) (s.reg t))

/-- `?` with an unknown comparison byte halts (R208). -/
def execHaltBadCmp (s : State) : Result := .next s.halt

/-- `;r` (R206): the target is read before sp moves, then pc is pushed, then pc is set. -/
def execCall (r : Reg) (s : State) : Result := .next ((s.push s.pc).setPc (s.reg r))

/-- `,` (R207): pc is the popped word. -/
def execRet (s : State) : Result := .next (s.popState.setPc s.popValue)

/-- The byte 0x00 (R125). -/
def execHalt (s : State) : Result := .next s.halt

/-- An opcode byte not in the case table (R127). -/
def execHaltUnknown (s : State) : Result := .next s.halt

/-- Whitespace: the fetch has moved pc past the byte and there is no other effect (R123). -/
def skip (s : State) : Result := .next s

/-- The space byte (R123). -/
def execSkipSpace (s : State) : Result := skip s

/-- The tab byte (R123). -/
def execSkipTab (s : State) : Result := skip s

/-- The newline byte (R123). -/
def execSkipNewline (s : State) : Result := skip s

/-- The vertical tab byte (R123). -/
def execSkipVerticalTab (s : State) : Result := skip s

/-- The form feed byte (R123). -/
def execSkipFormFeed (s : State) : Result := skip s

/-- The carriage return byte (R123). -/
def execSkipCarriageReturn (s : State) : Result := skip s

end Sys2Proof.Machine
end

