-- ==== Sys2Proof/Machine/LoadImmediate.lean ====
section
/-! DEFINITION. The `:` group: literal byte, two hex digits, register copy, unknown sub-mode (42_load_immediate.md). -/

namespace Sys2Proof.Machine

open Sys2Proof

/-- `:'dv` (R171): the literal byte, taken whole. -/
def execLdb (d : Reg) (v : Byte) (s : State) : Result := .next (s.setReg d (literalOperand s.cfg.wordBits v))

/-- `:#dhl` (R172): the value of the two digits; a byte that is no digit halts, with no register written. -/
def execLdx (d : Reg) (h l : Byte) (s : State) : Result :=
  match hexOperand h l with
  | some v => .next (s.setReg d (BitVec.ofNat s.cfg.wordBits v))
  | none => .next s.halt

/-- `:=ds` (R173). -/
def execMov (d src : Reg) (s : State) : Result := .next (s.setReg d (s.reg src))

/-- `:` with an unknown sub-mode byte halts (R174). -/
def execHaltBadMode (s : State) : Result := .next s.halt

end Sys2Proof.Machine
end

