-- ==== Sys2Proof/Machine/MemoryPort.lean ====
section
/-! DEFINITION. Memory and port load and store (43_memory_port.md). -/

namespace Sys2Proof.Machine

open Sys2Proof

/-- `@da` (R181): the byte at the wrapped address, zero-extended. -/
def execLd (d a : Reg) (s : State) : Result := .next (s.setReg d (s.memRead (s.reg a) 1))

/-- `!as` (R182): the low byte of the source to the wrapped address; no register is written. -/
def execSt (a src : Reg) (s : State) : Result := .next (s.memWrite (s.reg a) 1 (s.reg src))

/-- `{dp` (R184): the read hook, if any, then the slot it left. A hook that never returns leaves `x[d]` unwritten. -/
def execIn (d p : Reg) (s : State) : Result :=
  match s.portRead (portIndex (s.reg p)) with
  | .returned t => .next (t.setReg d (t.port (portIndex (s.reg p))))
  | .blocked t => .next t

/-- `}ps` (R185): the slot, then the write hook, if any; no register is written. -/
def execOut (p src : Reg) (s : State) : Result :=
  match s.portWrite (portIndex (s.reg p)) (s.reg src) with
  | .returned t => .next t
  | .blocked t => .next t

end Sys2Proof.Machine
end

