-- ==== Sys2Proof/Machine/Dispatch.lean ====
section
/-! DEFINITION. One arm for each instruction, each a direct call of its meaning. -/

namespace Sys2Proof.Machine

open Sys2Proof

def exec (i : Instr) (s : State) : Host.Outcome State Fault Refusal :=
  match i with
  -- arithmetic, bitwise, shift, complement (41_alu.md)
  | .add d a b => Sys2Proof.Machine.execAdd d a b s
  | .sub d a b => Sys2Proof.Machine.execSub d a b s
  | .mul d a b => Sys2Proof.Machine.execMul d a b s
  | .div d a b => Sys2Proof.Machine.execDiv d a b s
  | .mod d a b => Sys2Proof.Machine.execMod d a b s
  | .and d a b => Sys2Proof.Machine.execAnd d a b s
  | .or d a b => Sys2Proof.Machine.execOr d a b s
  | .xor d a b => Sys2Proof.Machine.execXor d a b s
  | .shl d a b => Sys2Proof.Machine.execShl d a b s
  | .shr d a b => Sys2Proof.Machine.execShr d a b s
  | .not d src => Sys2Proof.Machine.execNot d src s
  -- load immediate and register copy (42_load_immediate.md)
  | .ldb d v => Sys2Proof.Machine.execLdb d v s
  | .ldx d h l => Sys2Proof.Machine.execLdx d h l s
  | .mov d src => Sys2Proof.Machine.execMov d src s
  | .haltBadMode _ => Sys2Proof.Machine.execHaltBadMode s
  -- memory and ports (43_memory_port.md)
  | .ld d a => Sys2Proof.Machine.execLd d a s
  | .st a src => Sys2Proof.Machine.execSt a src s
  | .inp d p => Sys2Proof.Machine.execIn d p s
  | .out p src => Sys2Proof.Machine.execOut p src s
  -- control (44_control.md)
  | .jmp r => Sys2Proof.Machine.execJmp r s
  | .jeq a b t => Sys2Proof.Machine.execJeq a b t s
  | .jne a b t => Sys2Proof.Machine.execJne a b t s
  | .jlt a b t => Sys2Proof.Machine.execJlt a b t s
  | .jgt a b t => Sys2Proof.Machine.execJgt a b t s
  | .haltBadCmp _ => Sys2Proof.Machine.execHaltBadCmp s
  | .call r => Sys2Proof.Machine.execCall r s
  | .ret => Sys2Proof.Machine.execRet s
  -- halt and whitespace (40_fetch_decode.md)
  | .halt => Sys2Proof.Machine.execHalt s
  | .skipSpace => Sys2Proof.Machine.execSkipSpace s
  | .skipTab => Sys2Proof.Machine.execSkipTab s
  | .skipNewline => Sys2Proof.Machine.execSkipNewline s
  | .skipVerticalTab => Sys2Proof.Machine.execSkipVerticalTab s
  | .skipFormFeed => Sys2Proof.Machine.execSkipFormFeed s
  | .skipCarriageReturn => Sys2Proof.Machine.execSkipCarriageReturn s
  | .haltUnknown _ => Sys2Proof.Machine.execHaltUnknown s

end Sys2Proof.Machine
end

