-- ==== Sys2Proof/Machine/Step.lean ====
section
/-! DEFINITION. One step of the core, and the helper that puts an instruction where the next step fetches. -/

namespace Sys2Proof.Machine

open Sys2Proof

/-- `step()` (40_fetch_decode.md R120, R128): nothing while the core is stopped; otherwise fetch, decode and execute one
instruction or skip one whitespace byte, or halt at a fetch out of range. -/
def step (s : State) : Host.Outcome State Fault Refusal :=
  if s.stopped then .next s
  else
    match s.fetchInstr with
    | .instr i t => exec i t
    | .outOfRange t => .next t

/-- `s` with the instruction whose table word is `w` stored where the next step fetches, and free to take that step
(log 9). -/
def State.withFetchWord (s : State) (nbits w : Nat) : State :=
  { s with
    mem := placeBytes s.cfg.memSize s.pc s.mem (tableBytes nbits w)
    halted := false
    blockedIn := none }

end Sys2Proof.Machine
end

