-- ==== Sys2Proof/Machine/Listing.lean ====
section
/-! DEFINITION. The step as the listing of 40_fetch_decode.md R128 writes it: one Fetch() at a time, each byte acted on as
it comes. `step` fetches a window of bytes and decodes it whole; that the two agree is a statement
(Certificates/Slice0/Obligations.lean). Nothing of the machine is defined by this file. -/

namespace Sys2Proof.Machine

open Sys2Proof

/-- `Fetch()` and what follows it: a byte and the state with pc moved on, or a halt that ends the step (R121, R122). -/
def State.thenFetch (s : State) (k : Byte → State → State) : State :=
  if s.cfg.memSize ≤ s.pc.toNat then s.fetchOutOfRange
  else k (s.mem.read s.pc.toNat) (s.setPc (s.pc + 1))

/-- The operation of an F3 opcode byte (30_encoding.md R99); `%` only when HAS_MOD (opcode_table.json, row MOD). -/
def aluOpOfByte (hasMod : Bool) (op : Byte) : Option AluOp :=
  if op = 0x2B then some .add
  else if op = 0x2D then some .sub
  else if op = 0x2A then some .mul
  else if op = 0x2F then some .div
  else if op = 0x25 then (if hasMod then some .mod else none)
  else if op = 0x26 then some .and
  else if op = 0x7C then some .or
  else if op = 0x5E then some .xor
  else if op = 0x3C then some .shl
  else if op = 0x3E then some .shr
  else none

/-- The comparison of a selector byte of `?` (30_encoding.md R101). -/
def cmpOfByte (c : Byte) : Option Cmp :=
  if c = 0x3D then some .eq
  else if c = 0x21 then some .ne
  else if c = 0x3C then some .lt
  else if c = 0x3E then some .gt
  else none

/-- The `:` arm of R128, after its opcode. -/
def listingColon (s : State) : State :=
  s.thenFetch fun m s =>
    if m = 0x27 then
      s.thenFetch fun d s => s.thenFetch fun v s => s.setReg (regOf d) (v.setWidth s.cfg.wordBits)
    else if m = 0x23 then
      s.thenFetch fun d s => s.thenFetch fun h s => s.thenFetch fun l s =>
        match hexval h, hexval l with
        | some x, some y => s.setReg (regOf d) (BitVec.ofNat s.cfg.wordBits (16 * x + y))
        | _, _ => s.halt
    else if m = 0x3D then
      s.thenFetch fun d s => s.thenFetch fun src s => s.setReg (regOf d) (s.reg (regOf src))
    else s.halt

/-- The `?` arm of R128, after its opcode. -/
def listingQuestion (s : State) : State :=
  s.thenFetch fun c s =>
    match cmpOfByte c with
    | none => s.halt
    | some cmp =>
      s.thenFetch fun a s => s.thenFetch fun b s => s.thenFetch fun t s =>
        if cmp.holds (s.reg (regOf a)) (s.reg (regOf b)) then s.setPc (s.reg (regOf t)) else s

/-- The `{` arm of R128, after its opcode. -/
def listingIn (s : State) : State :=
  s.thenFetch fun d s => s.thenFetch fun p s =>
    match s.portRead (portIndex (s.reg (regOf p))) with
    | .returned t => t.setReg (regOf d) (t.port (portIndex (s.reg (regOf p))))
    | .blocked t => t

/-- The `}` arm of R128, after its opcode. -/
def listingOut (s : State) : State :=
  s.thenFetch fun p s => s.thenFetch fun src s =>
    match s.portWrite (portIndex (s.reg (regOf p))) (s.reg (regOf src)) with
    | .returned t => t
    | .blocked t => t

/-- The case of R128 on an opcode byte that is neither whitespace nor an F3 opcode. -/
def listingCase (op : Byte) (s : State) : State :=
  if op = 0x7E then
    s.thenFetch fun d s => s.thenFetch fun src s => s.setReg (regOf d) (aluNot (s.reg (regOf src)))
  else if op = 0x3A then listingColon s
  else if op = 0x40 then
    s.thenFetch fun d s => s.thenFetch fun a s => s.setReg (regOf d) (s.memRead (s.reg (regOf a)) 1)
  else if op = 0x21 then
    s.thenFetch fun a s => s.thenFetch fun src s => s.memWrite (s.reg (regOf a)) 1 (s.reg (regOf src))
  else if op = 0x7B then listingIn s
  else if op = 0x7D then listingOut s
  else if op = 0x2E then s.thenFetch fun r s => s.setPc (s.reg (regOf r))
  else if op = 0x3F then listingQuestion s
  else if op = 0x3B then s.thenFetch fun r s => (s.push s.pc).setPc (s.reg (regOf r))
  else if op = 0x2C then s.popState.setPc s.popValue
  else s.halt

/-- `step()` as R128 lists it; a core in a hook that never returned takes no step (R228). -/
def listingStep (s : State) : State :=
  if s.stopped then s
  else
    s.thenFetch fun op s =>
      if whitespaceBytes.contains op then s
      else
        match aluOpOfByte s.cfg.hasMod op with
        | some f =>
          s.thenFetch fun d s => s.thenFetch fun a s => s.thenFetch fun b s =>
            s.setReg (regOf d) (alu f (s.reg (regOf a)) (s.reg (regOf b)))
        | none => listingCase op s

end Sys2Proof.Machine
end

