-- ==== Sys2Proof/Machine/HostControl.lean ====
section
/-! DEFINITION. The host control interface: init, run, and access to the state between steps
(00_scope.md R7(3), 70_reset_and_hazards.md R250-R255). -/

namespace Sys2Proof.Machine

open Sys2Proof

/-- `init(buffer, MEM_SIZE)` (R250): every register and port 0, sp at the top of the buffer, HALTED cleared, the buffer
bound and not cleared. It calls no hook, and no step is in progress after it. -/
def State.init (s : State) (buffer : Memory) : State :=
  { s with
    mem := buffer
    regs := (Vector.replicate 128 0).set spReg (BitVec.ofNat _ s.cfg.memSize)
    ports := Vector.replicate 256 0
    halted := false
    blockedIn := none }

/-- What the host may do to the state while no step is in progress (R253): write a register, a port slot or a byte of
the store, copy a program into the store (R252), or call `init`. It writes HALTED by `init` only. -/
inductive HostAction where
  | writeReg (r : Reg) (v : Nat)
  | writePort (n : Port) (v : Nat)
  | writeByte (a : Nat) (b : Byte)
  | load (bytes : List Byte)
  | init (buffer : Memory)
deriving DecidableEq, Repr

/-- The effect of a host action taken between steps (R252, R253). A value is reduced modulo 2^W, and an index at or beyond
MEM_SIZE is no byte of the store: nothing happens (log 7). -/
def State.hostEffect (s : State) : HostAction → State
  | .writeReg r v => s.setReg r (BitVec.ofNat s.cfg.wordBits v)
  | .writePort n v => s.setPort n (BitVec.ofNat s.cfg.wordBits v)
  | .writeByte a b => { s with mem := s.mem.load s.cfg.memSize a [b] }
  | .load bytes => { s with mem := s.mem.load s.cfg.memSize 0 bytes }
  | .init buffer => s.init buffer

/-- A host action. It has its effect "while no step is in progress" only (R253; 00_scope.md R6): while a hook has not
returned, the step it belongs to is in progress and the host acts by that hook's reply alone (60_exceptions.md R225,
R226), so that any action tried then changes nothing (log 7). -/
def State.hostAct (s : State) (act : HostAction) : State :=
  if s.blockedIn.isSome then s else s.hostEffect act

/-- Where a run under fuel stands (40_fetch_decode.md R129, 70_reset_and_hazards.md R255). -/
inductive RunEnd where
  /-- HALTED is 1: the run has ended. -/
  | ended (s : State)
  /-- The fuel is used up: not yet halted, and never to be read as a halt. -/
  | running (s : State)
deriving DecidableEq, Repr

/-- Where a run stands at a state with no fuel left. -/
def runEndAt (s : State) : RunEnd := if s.halted then .ended s else .running s

/-- `run()` with fuel: `step()` is repeated until HALTED is 1 (40_fetch_decode.md R120). A run at HALTED = 1 ends at once
with nothing changed (70_reset_and_hazards.md R254). -/
def run : Nat → State → Host.Outcome RunEnd Fault Refusal
  | 0, s => .next (runEndAt s)
  | n + 1, s =>
    if s.halted then .next (.ended s)
    else
      match step s with
      | .next t => run n t
      | .fault f => .fault f
      | .refused r => .refused r

end Sys2Proof.Machine
end

