-- ==== Sys2Proof/Safety.lean ====
section
/-! DEFINITION. The terms claims are stated in: the state seen as unsigned integers and bytes, what stays the same, the
invariant of the machine, and the instructions whose halt is the spec's own decision. -/

namespace Sys2Proof.Machine

open Sys2Proof

/-! ## The state as the spec's integers (00_scope.md R10: a W-bit value is an unsigned integer in [0, 2^W)) -/

/-- `x[r]` as an unsigned integer. -/
def State.x (s : State) (r : Reg) : Nat := (s.reg r).toNat

/-- `PORT[n]` as an unsigned integer. -/
def State.portVal (s : State) (n : Port) : Nat := (s.port n).toNat

/-- The unsigned integer that n bytes make, byte 0 the least significant (20_memory.md R62). -/
def littleEndian (f : Nat → Byte) : Nat → Nat
  | 0 => 0
  | n + 1 => littleEndian f n + (f n).toNat * 256 ^ n

/-- Byte `k` of an unsigned integer: bits 8k+7 to 8k (20_memory.md R65). -/
def byteOf (v k : Nat) : Byte := BitVec.ofNat 8 (v / 256 ^ k)

/-- The bytes `bs` stand where fetches from pc read, all of them before the memory bound
(40_fetch_decode.md R121, R122). -/
def State.BytesAtPc (s : State) (bs : List Byte) : Prop :=
  ∀ k b, bs[k]? = some b →
    (s.x pcReg + k) % 2 ^ s.cfg.wordBits < s.cfg.memSize ∧
      s.mem.read ((s.x pcReg + k) % 2 ^ s.cfg.wordBits) = b

/-! ## What stays the same from one state to another -/

/-- Every register but those listed. -/
def SameRegsBut (ds : List Reg) (s t : State) : Prop := ∀ r, r ∉ ds → t.x r = s.x r

/-- Every byte of the store. -/
def SameMem (s t : State) : Prop := ∀ a, t.mem.read a = s.mem.read a

/-- Every port slot but those listed. -/
def SamePortsBut (ns : List Port) (s t : State) : Prop := ∀ n, n ∉ ns → t.portVal n = s.portVal n

/-- The parameters, and whether the core is halted or in a hook that has not returned. -/
def SameControl (s t : State) : Prop := t.cfg = s.cfg ∧ t.halted = s.halted ∧ t.blockedIn = s.blockedIn

/-- The hook calls made and the host's replies to come. -/
def SameHost (s t : State) : Prop := t.signals = s.signals ∧ t.hostScript = s.hostScript

/-- The one effect is that `x[d]` is `v`: every other register, every byte, every port, the control state and the host
side are as before. -/
def WritesOnly (s t : State) (d : Reg) (v : Nat) : Prop :=
  t.x d = v ∧ SameRegsBut [d] s t ∧ SameMem s t ∧ SamePortsBut [] s t ∧ SameControl s t ∧ SameHost s t

/-- The one effect is that HALTED is 1 (40_fetch_decode.md R126). -/
def HaltsOnly (s t : State) : Prop :=
  t.halted = true ∧ t.cfg = s.cfg ∧ t.blockedIn = s.blockedIn ∧ SameRegsBut [] s t ∧ SameMem s t ∧ SamePortsBut [] s t ∧
    SameHost s t

/-- Hook `c` has been called once, and one reply of the host has been used. -/
def CalledHook (c : HookCall) (s t : State) : Prop :=
  t.signals = c :: s.signals ∧ t.hostScript = s.hostScript.tail

/-! ## The invariant -/

/-- The host installed the hook that was called (10_state.md R44). -/
def HookCall.installed (c : HookCall) (cfg : Config) : Bool :=
  match c with
  | .aboutToRead _ => cfg.readHook
  | .wasWritten _ => cfg.writeHook

/-- What every step keeps: the store in its canonical form and inside MEM_SIZE (20_memory.md R60); a core in a hook that
has not returned is not halted (60_exceptions.md R228), and that hook is installed and is the last one called. That the
parameters are admissible needs no step to keep it: no others exist (`Config.admissible`, 00_scope.md R9). -/
def State.Inv (s : State) : Prop :=
  s.mem.wf ∧ s.mem.within s.cfg.memSize ∧
    ∀ c, s.blockedIn = some c → s.halted = false ∧ s.signals.head? = some c ∧ c.installed s.cfg = true

end Sys2Proof.Machine

/-! ## Halts -/

namespace Sys2Proof

open Sys2Proof.Machine

/-- The conditions that halt an instruction once its bytes are fetched (10_state.md R41); the one other halt is a fetch
out of range. -/
def Instr.haltsWhenRun : Instr → Prop
  | .halt => True
  | .haltUnknown _ => True
  | .haltBadMode _ => True
  | .haltBadCmp _ => True
  | .ldx _ h l => hexval h = none ∨ hexval l = none
  | _ => False

/-- An instruction whose halt is the spec's own decision about a byte the source says nothing of (D10, D12): the spec
names a static check that refuses programs reaching one as the safe side (93_implementation_defined.md I16). -/
def Instr.haltIsDecision : Instr → Bool
  | .haltBadMode _ => true
  | .haltBadCmp _ => true
  | .ldx _ h l => (hexOperand h l).isNone
  | _ => false

/-- pc after a fetch out of range at address `f`, as OOB_FETCH_PC says (40_fetch_decode.md R131). -/
def Config.pcAfterFailedFetch (c : Config) (f : Nat) : Nat :=
  match c.oobFetchPc with
  | .unchanged => f
  | .incremented => (f + 1) % 2 ^ c.wordBits

end Sys2Proof
end

