-- ==== Sys2Proof/Certificates/Slice0/Obligations.lean ====
section
/-! DEFINITION. The statements for the provers. A state is seen through `State.x`, `State.portVal` and `Memory.read`, so that
results are written in the spec's own unsigned arithmetic. In every statement about `exec`, the state is the one a step
hands to the instruction: pc already stands after the instruction's last byte (10_state.md R35). -/

open Sys2Proof Sys2Proof.Machine

namespace Sys2Proof.Claims

/-- Format F3 (30_encoding.md R94): the opcode and any three operand bytes decode to `f` of the registers they name. -/
def Encodes3 (op : Byte) (f : Reg → Reg → Reg → Instr) : Prop :=
  ∀ hasMod p q r rest, decode hasMod (op :: p :: q :: r :: rest) = .ok (f (regOf p) (regOf q) (regOf r), rest)

/-- Format F2. -/
def Encodes2 (op : Byte) (f : Reg → Reg → Instr) : Prop :=
  ∀ hasMod p q rest, decode hasMod (op :: p :: q :: rest) = .ok (f (regOf p) (regOf q), rest)

/-- Format F1. -/
def Encodes1 (op : Byte) (f : Reg → Instr) : Prop :=
  ∀ hasMod p rest, decode hasMod (op :: p :: rest) = .ok (f (regOf p), rest)

/-- Format F0. -/
def Encodes0 (op : Byte) (i : Instr) : Prop :=
  ∀ hasMod rest, decode hasMod (op :: rest) = .ok (i, rest)

/-- Format FC: `?`, a comparison byte and any three operand bytes. -/
def EncodesJump (c : Byte) (f : Reg → Reg → Reg → Instr) : Prop :=
  ∀ hasMod p q r rest, decode hasMod (0x3F :: c :: p :: q :: r :: rest) = .ok (f (regOf p) (regOf q) (regOf r), rest)

/-- The length table of 30_encoding.md R104, on the first two bytes; `%` is an unknown opcode where HAS_MOD is false
(93_implementation_defined.md I3). -/
def lengthByFirstBytes (hasMod : Bool) (b0 b1 : Byte) : Nat :=
  if b0 ∈ [0x2E, 0x3B] then 2
  else if b0 ∈ [0x7E, 0x40, 0x21, 0x7B, 0x7D] then 3
  else if b0 ∈ [0x2B, 0x2D, 0x2A, 0x2F, 0x26, 0x7C, 0x5E, 0x3C, 0x3E] then 4
  else if b0 = 0x25 then (if hasMod then 4 else 1)
  else if b0 = 0x3A then (if b1 ∈ [0x27, 0x3D] then 4 else if b1 = 0x23 then 5 else 2)
  else if b0 = 0x3F then (if b1 ∈ [0x3D, 0x21, 0x3C, 0x3E] then 5 else 2)
  else 1

end Sys2Proof.Claims

open Sys2Proof.Claims

/-! ## Encoding -/

/-- Decoding an encoded well-formed instruction gives it back and leaves the bytes after it, whatever HAS_MOD. -/
def Obligations.DecodeOfEncodeIsTheInstruction : Prop :=
  ∀ (hasMod : Bool) (i : Instr) (rest : List Byte), i.wf hasMod = true →
    decode hasMod (encode i ++ rest) = .ok (i, rest)

/-- What decodes is well-formed, takes exactly its length in bytes, and its encoding differs from those bytes at most in
an ignored bit 7. -/
def Obligations.DecodedBytesAreTheEncodingUpToIgnoredBits : Prop :=
  ∀ (hasMod : Bool) (bs rest : List Byte) (i : Instr), decode hasMod bs = .ok (i, rest) →
    i.wf hasMod = true ∧ bs.length = i.length + rest.length ∧ bs.drop i.length = rest ∧
      List.Forall₂ (fun e b => e = b ∨ e = b &&& 0x7F) (encode i) (bs.take i.length)

/-- A byte string that decodes, decodes as the opcode table's matching row of lowest priority number, for either
HAS_MOD. -/
def Obligations.DecodeFollowsTheOpcodeTable : Prop :=
  ∀ (hasMod : Bool) (bs rest : List Byte) (i : Instr), decode hasMod bs = .ok (i, rest) →
    (tableRowOf hasMod bs).map (·.mnemonic) = some i.mnemonic

/-- R31 and R96: a register byte is masked to 7 bits; opcode, selector, digit and literal bytes are not. -/
def Obligations.OnlyRegisterBytesAreMasked : Prop :=
  (∀ b : Byte, (regOf b).val = b.toNat % 128 ∧ regOf (b ||| 0x80) = regOf b) ∧
  (∀ (hasMod : Bool) (op : Byte) (rest : List Byte), 0x80 ≤ op →
    decode hasMod (op :: rest) = .ok (.haltUnknown op, rest)) ∧
  (∀ (hasMod : Bool) (m : Byte) (rest : List Byte), 0x80 ≤ m →
    decode hasMod (0x3A :: m :: rest) = .ok (.haltBadMode m, rest) ∧
      decode hasMod (0x3F :: m :: rest) = .ok (.haltBadCmp m, rest)) ∧
  (∀ c : Byte, 0x80 ≤ c → hexval c = none) ∧
  (∀ (hasMod : Bool) (p v : Byte) (rest : List Byte),
    decode hasMod (0x3A :: 0x27 :: p :: v :: rest) = .ok (.ldb (regOf p) v, rest)) ∧
  (∀ (w : Nat) (v : Byte), 8 ≤ w → (literalOperand w v).toNat = v.toNat)

/-- R98: the value of each hex-digit character, and none for any other byte, which in either digit position halts. -/
def Obligations.HexDigitValues : Prop :=
  ∀ c : Byte,
    (0x30 ≤ c.toNat → c.toNat ≤ 0x39 → hexval c = some (c.toNat - 0x30)) ∧
    (0x41 ≤ c.toNat → c.toNat ≤ 0x46 → hexval c = some (c.toNat - 0x41 + 10)) ∧
    (0x61 ≤ c.toNat → c.toNat ≤ 0x66 → hexval c = some (c.toNat - 0x61 + 10)) ∧
    (¬(0x30 ≤ c.toNat ∧ c.toNat ≤ 0x39) → ¬(0x41 ≤ c.toNat ∧ c.toNat ≤ 0x46) → ¬(0x61 ≤ c.toNat ∧ c.toNat ≤ 0x66) →
      hexval c = none) ∧
    (hexval c = none → ∀ (d : Reg) (o : Byte) (s : State),
      (∃ t, exec (.ldx d c o) s = .next t ∧ HaltsOnly s t) ∧ (∃ t, exec (.ldx d o c) s = .next t ∧ HaltsOnly s t))

/-- Five bytes always decode, for either HAS_MOD, to an instruction whose length is the function of its first two bytes
that R104 tabulates. -/
def Obligations.LengthIsGivenByTheFirstTwoBytes : Prop :=
  ∀ (hasMod : Bool) (b0 b1 b2 b3 b4 : Byte) (rest : List Byte), ∃ i,
    decode hasMod (b0 :: b1 :: b2 :: b3 :: b4 :: rest) =
      .ok (i, (b0 :: b1 :: b2 :: b3 :: b4 :: rest).drop (lengthByFirstBytes hasMod b0 b1)) ∧
    i.length = lengthByFirstBytes hasMod b0 b1

/-- A few words written out from the spec's encodings. -/
def Obligations.SampleWordsDecodeAsTheSpecSays : Prop :=
  decode true [0x2B, 0x61, 0xE2, 0x63] = .ok (.add 0x61 0x62 0x63, []) ∧
  decode true [0x3A, 0x23, 0x61, 0x32, 0x41] = .ok (.ldx 0x61 0x32 0x41, []) ∧
  decode true [0x3A, 0x27, 0x61, 0xFF, 0x00] = .ok (.ldb 0x61 0xFF, [0x00]) ∧
  decode true [0x40, 0x64, 0x61] = .ok (.ld 0x64 0x61, []) ∧
  decode true [0x7D, 0x70, 0x73] = .ok (.out 0x70 0x73, []) ∧
  decode true [0x3F, 0x3C, 0x61, 0x62, 0x74] = .ok (.jlt 0x61 0x62 0x74, []) ∧
  decode true [0x3B, 0x66] = .ok (.call 0x66, []) ∧
  decode true [0x20, 0x2B] = .ok (.skipSpace, [0x2B]) ∧
  decode true [0x30] = .ok (.haltUnknown 0x30, [])

/-! ## Arithmetic, bitwise, shift, complement -/

/-- R144, R145, R146: the sum, difference and product modulo 2^W, and no other effect. -/
def Obligations.ArithmeticWrapsModuloTheWord : Prop :=
  Encodes3 0x2B .add ∧ Encodes3 0x2D .sub ∧ Encodes3 0x2A .mul ∧
  ∀ (d a b : Reg) (s : State),
    (∃ t, exec (.add d a b) s = .next t ∧ WritesOnly s t d ((s.x a + s.x b) % 2 ^ s.cfg.wordBits)) ∧
    (∃ t, exec (.sub d a b) s = .next t ∧
      WritesOnly s t d (((s.x a : Int) - (s.x b : Int)) % (2 ^ s.cfg.wordBits : Int)).toNat) ∧
    (∃ t, exec (.mul d a b) s = .next t ∧ WritesOnly s t d ((s.x a * s.x b) % 2 ^ s.cfg.wordBits))

/-- R147, R148: the unsigned quotient and remainder, 0 for a zero divisor, and no other effect; and with HAS_MOD false
the byte `%` is an unknown opcode (R127, 93_implementation_defined.md I3). That exec gives the term MOD its effect in a
state with HAS_MOD false too, where no byte string decodes to it, is the model's choice (log 10). -/
def Obligations.DivisionByZeroYieldsZero : Prop :=
  Encodes3 0x2F .div ∧
  (∀ p q r rest, decode true (0x25 :: p :: q :: r :: rest) = .ok (.mod (regOf p) (regOf q) (regOf r), rest)) ∧
  (∀ rest, decode false (0x25 :: rest) = .ok (.haltUnknown 0x25, rest)) ∧
  ∀ (d a b : Reg) (s : State),
    (∃ t, exec (.div d a b) s = .next t ∧ WritesOnly s t d (if s.x b = 0 then 0 else s.x a / s.x b)) ∧
    (∃ t, exec (.mod d a b) s = .next t ∧ WritesOnly s t d (if s.x b = 0 then 0 else s.x a % s.x b))

/-- R149, R150, R151: and, or, exclusive or, and no other effect. -/
def Obligations.BitwiseOperationsWriteOneRegister : Prop :=
  Encodes3 0x26 .and ∧ Encodes3 0x7C .or ∧ Encodes3 0x5E .xor ∧
  ∀ (d a b : Reg) (s : State),
    (∃ t, exec (.and d a b) s = .next t ∧ WritesOnly s t d (s.x a &&& s.x b)) ∧
    (∃ t, exec (.or d a b) s = .next t ∧ WritesOnly s t d (s.x a ||| s.x b)) ∧
    (∃ t, exec (.xor d a b) s = .next t ∧ WritesOnly s t d (s.x a ^^^ s.x b))

/-- R152, R153: shifts by the whole value of the amount register; W or more gives 0; the right shift is logical. -/
def Obligations.ShiftByTheWidthOrMoreYieldsZero : Prop :=
  Encodes3 0x3C .shl ∧ Encodes3 0x3E .shr ∧
  ∀ (d a b : Reg) (s : State),
    (∃ t, exec (.shl d a b) s = .next t ∧
      WritesOnly s t d (if s.cfg.wordBits ≤ s.x b then 0 else (s.x a * 2 ^ s.x b) % 2 ^ s.cfg.wordBits)) ∧
    (∃ t, exec (.shr d a b) s = .next t ∧
      WritesOnly s t d (if s.cfg.wordBits ≤ s.x b then 0 else s.x a / 2 ^ s.x b))

/-- R154: every bit inverted, that is 2^W - 1 - x[s]. -/
def Obligations.ComplementInvertsEveryBit : Prop :=
  Encodes2 0x7E .not ∧
  ∀ (d src : Reg) (s : State), ∃ t, exec (.not d src) s = .next t ∧
    WritesOnly s t d (2 ^ s.cfg.wordBits - 1 - s.x src)

/-! ## Load immediate and register copy -/

/-- R171: the literal byte, whole, zero-extended. -/
def Obligations.LoadLiteralByteIsVerbatim : Prop :=
  (∀ hasMod p v rest, decode hasMod (0x3A :: 0x27 :: p :: v :: rest) = .ok (.ldb (regOf p) v, rest)) ∧
  ∀ (d : Reg) (v : Byte) (s : State), ∃ t, exec (.ldb d v) s = .next t ∧ WritesOnly s t d v.toNat

/-- R172: the value of two hex digits; a byte that is no digit halts with no register written. -/
def Obligations.LoadHexDigitsOrHalt : Prop :=
  (∀ hasMod p h l rest, decode hasMod (0x3A :: 0x23 :: p :: h :: l :: rest) = .ok (.ldx (regOf p) h l, rest)) ∧
  ∀ (d : Reg) (h l : Byte) (s : State),
    (∀ x y, hexval h = some x → hexval l = some y →
      ∃ t, exec (.ldx d h l) s = .next t ∧ WritesOnly s t d (16 * x + y)) ∧
    ((hexval h = none ∨ hexval l = none) → ∃ t, exec (.ldx d h l) s = .next t ∧ HaltsOnly s t)

/-- R173: a register copy. -/
def Obligations.MoveCopiesTheRegister : Prop :=
  (∀ hasMod p q rest, decode hasMod (0x3A :: 0x3D :: p :: q :: rest) = .ok (.mov (regOf p) (regOf q), rest)) ∧
  ∀ (d src : Reg) (s : State), ∃ t, exec (.mov d src) s = .next t ∧ WritesOnly s t d (s.x src)

/-! ## Memory and ports -/

/-- R181: the byte at the wrapped address, zero-extended. -/
def Obligations.LoadReadsTheByteAtTheWrappedAddress : Prop :=
  Encodes2 0x40 .ld ∧
  ∀ (d a : Reg) (s : State), ∃ t, exec (.ld d a) s = .next t ∧
    WritesOnly s t d (s.mem.read (s.x a % s.cfg.memSize)).toNat

/-- R182: the low byte of the source at the wrapped address; every other byte, and every register and port, is as
before. -/
def Obligations.StoreWritesOneByteAtTheWrappedAddress : Prop :=
  Encodes2 0x21 .st ∧
  ∀ (a src : Reg) (s : State), ∃ t, exec (.st a src) s = .next t ∧
    s.dataAddress (s.reg a) = s.x a % s.cfg.memSize ∧
    t.mem.read (s.dataAddress (s.reg a)) = byteOf (s.x src) 0 ∧
    (∀ k, k ≠ s.dataAddress (s.reg a) → t.mem.read k = s.mem.read k) ∧
    SameRegsBut [] s t ∧ SamePortsBut [] s t ∧ SameControl s t ∧ SameHost s t

/-- R183, R184, R186: a port read, without a hook and for each reply of an installed one. A hook that never returns
leaves the destination unwritten; that the core then stands in `blockedIn`, and that such a hook may have written the slot
first, are the model's choices (logs 3, 18). -/
def Obligations.PortReadTakesTheSlotTheHookLeft : Prop :=
  Encodes2 0x7B .inp ∧
  ∀ (d p : Reg) (s : State),
    (portIndex (s.reg p)).val = s.x p % 256 ∧
    (s.cfg.readHook = false →
      ∃ t, exec (.inp d p) s = .next t ∧ WritesOnly s t d (s.portVal (portIndex (s.reg p)))) ∧
    (s.cfg.readHook = true → s.hostReply = .keeps →
      ∃ t, exec (.inp d p) s = .next t ∧ t.x d = s.portVal (portIndex (s.reg p)) ∧ SamePortsBut [] s t ∧
        SameRegsBut [d] s t ∧ SameMem s t ∧ SameControl s t ∧ CalledHook (.aboutToRead (portIndex (s.reg p))) s t) ∧
    (∀ v, s.cfg.readHook = true → s.hostReply = .writes v →
      ∃ t, exec (.inp d p) s = .next t ∧ t.x d = v % 2 ^ s.cfg.wordBits ∧
        t.portVal (portIndex (s.reg p)) = v % 2 ^ s.cfg.wordBits ∧ SamePortsBut [portIndex (s.reg p)] s t ∧
        SameRegsBut [d] s t ∧ SameMem s t ∧ SameControl s t ∧ CalledHook (.aboutToRead (portIndex (s.reg p))) s t) ∧
    (s.cfg.readHook = true → s.hostReply = .blocks →
      ∃ t, exec (.inp d p) s = .next t ∧ t.blockedIn = some (.aboutToRead (portIndex (s.reg p))) ∧
        t.halted = s.halted ∧ t.cfg = s.cfg ∧ SameRegsBut [] s t ∧ SameMem s t ∧ SamePortsBut [] s t ∧
        CalledHook (.aboutToRead (portIndex (s.reg p))) s t) ∧
    (∀ v, s.cfg.readHook = true → s.hostReply = .writesThenBlocks v →
      ∃ t, exec (.inp d p) s = .next t ∧ t.blockedIn = some (.aboutToRead (portIndex (s.reg p))) ∧
        t.portVal (portIndex (s.reg p)) = v % 2 ^ s.cfg.wordBits ∧ SamePortsBut [portIndex (s.reg p)] s t ∧
        t.halted = s.halted ∧ t.cfg = s.cfg ∧ SameRegsBut [] s t ∧ SameMem s t ∧
        CalledHook (.aboutToRead (portIndex (s.reg p))) s t)

/-- R183, R185, R187: a port write: the whole word in the slot, then the hook, once, if one is installed. A hook that
never returns leaves the slot written; that the core then stands in `blockedIn` is the model's choice (log 3). -/
def Obligations.PortWriteStoresTheWordThenCallsTheHook : Prop :=
  Encodes2 0x7D .out ∧
  ∀ (p src : Reg) (s : State),
    (portIndex (s.reg p)).val = s.x p % 256 ∧
    ∃ t, exec (.out p src) s = .next t ∧
      t.portVal (portIndex (s.reg p)) = s.x src ∧ SamePortsBut [portIndex (s.reg p)] s t ∧
      SameRegsBut [] s t ∧ SameMem s t ∧ t.cfg = s.cfg ∧ t.halted = s.halted ∧
      (s.cfg.writeHook = false → SameHost s t ∧ t.blockedIn = s.blockedIn) ∧
      (s.cfg.writeHook = true → CalledHook (.wasWritten (portIndex (s.reg p))) s t ∧
        t.blockedIn = if s.hostReply.neverReturns then some (.wasWritten (portIndex (s.reg p))) else s.blockedIn)

/-- R188: without hooks, a port write and then a port read of the same slot returns the word written, and so does a read
through any register value equal to it modulo 256. -/
def Obligations.PortWriteThenReadReturnsTheWord : Prop :=
  ∀ (p src d q : Reg) (s t : State), s.cfg.readHook = false → s.cfg.writeHook = false →
    exec (.out p src) s = .next t → t.x q % 256 = s.x p % 256 →
      ∃ u, exec (.inp d q) t = .next u ∧ u.x d = s.x src

/-- R71: a byte stored and then loaded, through any address equal to it modulo MEM_SIZE, is the byte last written. -/
def Obligations.StoreThenLoadReturnsTheByte : Prop :=
  ∀ (a src d a' : Reg) (s t : State),
    exec (.st a src) s = .next t → t.x a' % s.cfg.memSize = s.x a % s.cfg.memSize →
      ∃ u, exec (.ld d a') t = .next u ∧ u.x d = s.x src % 256

/-- R74, R257: a byte stored at the address of the next fetch is the byte that fetch reads: the first of the window that
the next step decodes (the window is the model's own form, log 13). -/
def Obligations.StoreIsSeenByTheNextFetch : Prop :=
  ∀ (a src : Reg) (s t : State), exec (.st a src) s = .next t → s.x pcReg < s.cfg.memSize →
    s.dataAddress (s.reg a) = s.x pcReg → ∃ rest, t.fetchWindow = byteOf (s.x src) 0 :: rest

/-- R64: the bytes at the separately wrapped addresses, the lowest address least significant. -/
def Obligations.MemReadIsLittleEndian : Prop :=
  ∀ (s : State) (addr : Word s.cfg.wordBits) (n : Nat), 1 ≤ n → n ≤ s.cfg.wordBits / 8 →
    (s.memRead addr n).toNat = littleEndian (fun k => s.mem.read ((addr.toNat + k) % s.cfg.memSize)) n

/-- R65: byte k of the value at the k-th wrapped address; every other byte, and everything else, is as before. That the
later byte stays where two addresses wrap to one (W/8 > MEM_SIZE) is the model's reading of R65's loop, an order that
92_eei_decisions.md D24 does not make architectural (DEDUCED, log 11). -/
def Obligations.MemWriteStoresTheLowBytes : Prop :=
  ∀ (s : State) (addr v : Word s.cfg.wordBits) (n : Nat), 1 ≤ n → n ≤ s.cfg.wordBits / 8 →
    (∀ k, k < n →
      (∀ j, k < j → j < n → (addr.toNat + j) % s.cfg.memSize ≠ (addr.toNat + k) % s.cfg.memSize) →
        (s.memWrite addr n v).mem.read ((addr.toNat + k) % s.cfg.memSize) = byteOf v.toNat k) ∧
    (∀ a, (∀ k, k < n → a ≠ (addr.toNat + k) % s.cfg.memSize) → (s.memWrite addr n v).mem.read a = s.mem.read a) ∧
    SameRegsBut [] s (s.memWrite addr n v) ∧ SamePortsBut [] s (s.memWrite addr n v) ∧
    SameControl s (s.memWrite addr n v) ∧ SameHost s (s.memWrite addr n v)

/-! ## Control flow -/

/-- R200: pc is the whole register value. -/
def Obligations.JumpSetsPc : Prop :=
  Encodes1 0x2E .jmp ∧
  ∀ (r : Reg) (s : State), ∃ t, exec (.jmp r) s = .next t ∧ WritesOnly s t pcReg (s.x r)

/-- R201 to R205: pc is the target on a true unsigned comparison and stays at the next instruction otherwise; nothing
else changes. -/
def Obligations.ConditionalJumpComparesUnsigned : Prop :=
  EncodesJump 0x3D .jeq ∧ EncodesJump 0x21 .jne ∧ EncodesJump 0x3C .jlt ∧ EncodesJump 0x3E .jgt ∧
  ∀ (a b tgt : Reg) (s : State),
    (∃ t, exec (.jeq a b tgt) s = .next t ∧ WritesOnly s t pcReg (if s.x a = s.x b then s.x tgt else s.x pcReg)) ∧
    (∃ t, exec (.jne a b tgt) s = .next t ∧ WritesOnly s t pcReg (if s.x a ≠ s.x b then s.x tgt else s.x pcReg)) ∧
    (∃ t, exec (.jlt a b tgt) s = .next t ∧ WritesOnly s t pcReg (if s.x a < s.x b then s.x tgt else s.x pcReg)) ∧
    (∃ t, exec (.jgt a b tgt) s = .next t ∧ WritesOnly s t pcReg (if s.x a > s.x b then s.x tgt else s.x pcReg))

/-- R206, R67, R65: pc is the target read first; sp moves down by W/8 modulo 2^W; the W/8 bytes at the new sp hold the
return address, lowest byte lowest; nothing else changes. That the later byte stays where two stack addresses wrap to one
(W/8 > MEM_SIZE) is the model's reading of R65's loop (DEDUCED, log 11). -/
def Obligations.CallPushesTheReturnAddress : Prop :=
  Encodes1 0x3B .call ∧
  ∀ (r : Reg) (s : State), ∃ t, exec (.call r) s = .next t ∧
    t.x pcReg = s.x r ∧
    t.x spReg = s.pushedSp.toNat ∧
    (s.pushedSp.toNat : Int) = ((s.x spReg : Int) - (s.cfg.wordBits / 8 : Nat)) % (2 ^ s.cfg.wordBits : Int) ∧
    SameRegsBut [pcReg, spReg] s t ∧
    (∀ k, k < s.cfg.wordBits / 8 →
      (∀ j, k < j → j < s.cfg.wordBits / 8 →
        (s.pushedSp.toNat + j) % s.cfg.memSize ≠ (s.pushedSp.toNat + k) % s.cfg.memSize) →
          t.mem.read ((s.pushedSp.toNat + k) % s.cfg.memSize) = byteOf (s.x pcReg) k) ∧
    (∀ a, (∀ k, k < s.cfg.wordBits / 8 → a ≠ (s.pushedSp.toNat + k) % s.cfg.memSize) →
      t.mem.read a = s.mem.read a) ∧
    SamePortsBut [] s t ∧ SameControl s t ∧ SameHost s t

/-- R207, R68: pc is the little-endian word at sp, whatever bytes are there; sp moves up by W/8 modulo 2^W; nothing else
changes. -/
def Obligations.ReturnPopsWhateverIsAtSp : Prop :=
  Encodes0 0x2C .ret ∧
  ∀ (s : State), ∃ t, exec .ret s = .next t ∧
    t.x pcReg = littleEndian (fun k => s.mem.read ((s.x spReg + k) % s.cfg.memSize)) (s.cfg.wordBits / 8) ∧
    t.x spReg = (s.x spReg + s.cfg.wordBits / 8) % 2 ^ s.cfg.wordBits ∧
    SameRegsBut [pcReg, spReg] s t ∧ SameMem s t ∧ SamePortsBut [] s t ∧ SameControl s t ∧ SameHost s t

/-- A call, then any activity that leaves sp and the pushed bytes as the call left them (nested calls and returns among
it), then a return: pc is at the instruction following the call and sp is where it was. The stack word must fit the
store (log 11). -/
def Obligations.ReturnComesBackToTheCall : Prop :=
  ∀ (r : Reg) (s t t' : State), s.cfg.stackBytes ≤ s.cfg.memSize →
    exec (.call r) s = .next t → t'.cfg = t.cfg → t'.x spReg = t.x spReg →
    (∀ k, k < t.cfg.stackBytes →
      t'.mem.read ((t.x spReg + k) % t.cfg.memSize) = t.mem.read ((t.x spReg + k) % t.cfg.memSize)) →
      ∃ u, exec .ret t' = .next u ∧ u.x pcReg = s.x pcReg ∧ u.x spReg = s.x spReg ∧ SameRegsBut [pcReg, spReg] t' u ∧
        SameMem t' u

/-! ## Halt and skip -/

/-- R125, R126, R127, R174, R208: the halting instructions set HALTED and change nothing else; each is reached by its
bytes; and a step at such bytes halts with pc after them and every other register, byte and port as before. -/
def Obligations.HaltInstructionsOnlyHalt : Prop :=
  Encodes0 0x00 .halt ∧
  (∀ hasMod op rest, isUnknownOpcode hasMod op = true → decode hasMod (op :: rest) = .ok (.haltUnknown op, rest)) ∧
  (∀ hasMod m rest, m ∉ ([0x27, 0x23, 0x3D] : List Byte) →
    decode hasMod (0x3A :: m :: rest) = .ok (.haltBadMode m, rest)) ∧
  (∀ hasMod c rest, c ∉ ([0x3D, 0x21, 0x3C, 0x3E] : List Byte) →
    decode hasMod (0x3F :: c :: rest) = .ok (.haltBadCmp c, rest)) ∧
  ∀ (b : Byte) (s : State),
    (∃ t, exec .halt s = .next t ∧ HaltsOnly s t) ∧
    (∃ t, exec (.haltUnknown b) s = .next t ∧ HaltsOnly s t) ∧
    (∃ t, exec (.haltBadMode b) s = .next t ∧ HaltsOnly s t) ∧
    (∃ t, exec (.haltBadCmp b) s = .next t ∧ HaltsOnly s t) ∧
    ∀ bs : List Byte, s.stopped = false → s.BytesAtPc bs →
      (bs = [0x00] ∨ (isUnknownOpcode s.cfg.hasMod b = true ∧ bs = [b]) ∨
        (b ∉ ([0x27, 0x23, 0x3D] : List Byte) ∧ bs = [0x3A, b]) ∨
        (b ∉ ([0x3D, 0x21, 0x3C, 0x3E] : List Byte) ∧ bs = [0x3F, b])) →
      ∃ t, step s = .next t ∧ t.halted = true ∧ t.x pcReg = (s.x pcReg + bs.length) % 2 ^ s.cfg.wordBits ∧
        SameRegsBut [pcReg] s t ∧ SameMem s t ∧ SamePortsBut [] s t ∧ SameHost s t ∧ t.cfg = s.cfg ∧
        t.blockedIn = s.blockedIn

/-- R123: a whitespace byte at opcode position is an instruction that changes nothing, so that the step that fetches it
has one effect, pc <- pc + 1. -/
def Obligations.WhitespaceChangesNothing : Prop :=
  Encodes0 0x20 .skipSpace ∧ Encodes0 0x09 .skipTab ∧ Encodes0 0x0A .skipNewline ∧ Encodes0 0x0B .skipVerticalTab ∧
  Encodes0 0x0C .skipFormFeed ∧ Encodes0 0x0D .skipCarriageReturn ∧
  ∀ s : State,
    exec .skipSpace s = .next s ∧ exec .skipTab s = .next s ∧ exec .skipNewline s = .next s ∧
    exec .skipVerticalTab s = .next s ∧ exec .skipFormFeed s = .next s ∧ exec .skipCarriageReturn s = .next s ∧
    ∀ b : Byte, s.stopped = false → b ∈ ([0x20, 0x09, 0x0A, 0x0D, 0x0C, 0x0B] : List Byte) → s.BytesAtPc [b] →
      ∃ t, step s = .next t ∧ WritesOnly s t pcReg ((s.x pcReg + 1) % 2 ^ s.cfg.wordBits)

/-! ## The step -/

/-- A running core whose window decodes to `i` runs `i` with pc moved past the bytes of `i`, and of no more. The window of
up to five bytes is the model's own form (log 13). -/
def Obligations.StepRunsTheDecodedInstruction : Prop :=
  ∀ (s : State) (i : Instr) (rest : List Byte), s.stopped = false →
    decode s.cfg.hasMod s.fetchWindow = .ok (i, rest) →
      step s = exec i (s.advance (s.fetchWindow.length - rest.length))

/-- R35: where the bytes standing at pc are exactly an instruction's, the step runs it in the same state but for pc, which
is the address of the byte after the instruction, modulo 2^W. -/
def Obligations.StepRunsTheInstructionStandingAtPc : Prop :=
  ∀ (s : State) (bs : List Byte) (i : Instr), s.stopped = false → s.BytesAtPc bs →
    decode s.cfg.hasMod bs = .ok (i, []) →
      step s = exec i (s.advance i.length) ∧
        WritesOnly s (s.advance i.length) pcReg ((s.x pcReg + i.length) % 2 ^ s.cfg.wordBits)

/-- The window of up to five bytes that a step decodes is the model's own form (DEDUCED, log 13): of it, a step of the spec
fetches its instruction's bytes only (R104, R124). Each byte of the window is what `Fetch()` reads at pc and the addresses
after it as the store stands (R121, R74); where it has fewer than five, the next address is at or beyond the bound. -/
def Obligations.FetchReadsTheStoreAtPc : Prop :=
  ∀ s : State, s.fetchWindow.length ≤ 5 ∧ s.BytesAtPc s.fetchWindow ∧
    (s.fetchWindow.length < 5 →
      s.cfg.memSize ≤ (s.x pcReg + s.fetchWindow.length) % 2 ^ s.cfg.wordBits)

/-- R120, R129: a halted core takes no step and its run has ended; a run repeats the step until HALTED is 1, and says that
it has ended only of a halted state. That a run takes units of fuel, and its two answers, ended and running, are the
model's form of a run under fuel (DESIGN CHOICE, log 16). -/
def Obligations.RunRepeatsTheStepUntilHalted : Prop :=
  ∀ (s : State) (n : Nat),
    (s.halted = true → step s = .next s ∧ run n s = .next (.ended s)) ∧
    (∀ t, s.halted = false → step s = .next t → run (n + 1) s = run n t) ∧
    (∀ t, run n s = .next (.ended t) → t.halted = true) ∧
    (∀ t, run n s = .next (.running t) → t.halted = false)

/-- R129: more fuel does not change a run that has ended, and every run answers. The fuel and its answers are the model's
(log 16). -/
def Obligations.MoreFuelKeepsTheEndOfARun : Prop :=
  ∀ (s : State) (n k : Nat),
    (∃ e, run n s = .next e) ∧ ∀ t, run n s = .next (.ended t) → run (n + k) s = .next (.ended t)

/-- R122: a fetch at or beyond the memory bound, of the opcode or of any operand byte, halts: the instruction has none of
its effects, and pc is the address of the failed fetch, or one more if OOB_FETCH_PC says so. -/
def Obligations.OutOfRangeFetchHalts : Prop :=
  ∀ s : State, s.stopped = false → decode s.cfg.hasMod s.fetchWindow = .error .truncated →
    s.cfg.memSize ≤ (s.x pcReg + s.fetchWindow.length) % 2 ^ s.cfg.wordBits ∧
    ∃ t, step s = .next t ∧ t.halted = true ∧
      t.x pcReg = s.cfg.pcAfterFailedFetch ((s.x pcReg + s.fetchWindow.length) % 2 ^ s.cfg.wordBits) ∧
      SameRegsBut [pcReg] s t ∧ SameMem s t ∧ SamePortsBut [] s t ∧ SameHost s t ∧ t.cfg = s.cfg ∧
      t.blockedIn = s.blockedIn

/-- Every step of every state answers a next state: the core has no fault outcome, and no instruction is refused. That a
core in a hook that never returns answers itself is the model's choice (log 3). -/
def Obligations.EveryStepAnswersANextState : Prop :=
  (∀ (i : Instr) (s : State), ∃ t, exec i s = .next t) ∧ ∀ s : State, ∃ t, step s = .next t

/-- A running core halts in a step exactly on a fetch out of range or one of the halting instructions. -/
def Obligations.StepHaltsExactlyOnTheHaltConditions : Prop :=
  ∀ s t : State, s.stopped = false → step s = .next t →
    (t.halted = true ↔
      decode s.cfg.hasMod s.fetchWindow = .error .truncated ∨
        ∃ i rest, decode s.cfg.hasMod s.fetchWindow = .ok (i, rest) ∧ i.haltsWhenRun)

/-- R130, R131: a step that halts changes no register other than pc, no byte, no port, and calls no hook; pc keeps the
increments of the fetches that succeeded, by the kind of halt. -/
def Obligations.HaltingStepOnlyMovesPc : Prop :=
  (∀ s t : State, s.stopped = false → step s = .next t → t.halted = true →
    SameRegsBut [pcReg] s t ∧ SameMem s t ∧ SamePortsBut [] s t ∧ SameHost s t ∧ t.cfg = s.cfg ∧ t.blockedIn = none) ∧
  ∀ s t : State, s.stopped = false → step s = .next t →
    (∀ i rest, decode s.cfg.hasMod s.fetchWindow = .ok (i, rest) → i.haltsWhenRun →
      t.halted = true ∧ t.x pcReg = (s.x pcReg + i.length) % 2 ^ s.cfg.wordBits) ∧
    (decode s.cfg.hasMod s.fetchWindow = .error .truncated →
      t.halted = true ∧
        t.x pcReg = s.cfg.pcAfterFailedFetch ((s.x pcReg + s.fetchWindow.length) % 2 ^ s.cfg.wordBits)) ∧
    (s.cfg.memSize ≤ s.x pcReg → t.halted = true ∧ t.x pcReg = s.cfg.pcAfterFailedFetch (s.x pcReg))

/-- R128: the step is the listing that fetches one byte at a time and acts on each as it comes. That a core in a hook that
never returned takes no step, in both, is the model's choice (log 3). -/
def Obligations.StepIsTheListing : Prop :=
  ∀ s : State, step s = .next (listingStep s)

/-! ## Invariants and whole-machine rules -/

/-- Every step keeps the invariant: the store's canonical form inside MEM_SIZE, and a core in a hook that has not returned
is not halted and stands in the installed hook it called last. -/
def Obligations.EveryStepKeepsTheInvariant : Prop :=
  ∀ s t : State, s.Inv → step s = .next t → t.Inv

/-- The invariant holds after reset, and of `init` with any store in canonical form inside MEM_SIZE. -/
def Obligations.ResetMeetsTheInvariant : Prop :=
  State.reset.Inv ∧
  ∀ (s : State) (buffer : Memory), buffer.wf → buffer.within s.cfg.memSize → (s.init buffer).Inv

/-- R44: no step changes the hook configuration, nor any other parameter. -/
def Obligations.NoStepChangesTheParameters : Prop :=
  ∀ s t : State, step s = .next t → t.cfg = s.cfg

/-- Only a store and a call change a byte of the store, and only the bytes they are stated to store to. -/
def Obligations.OnlyStoreAndCallChangeMemory : Prop :=
  ∀ (i : Instr) (s t : State) (k : Nat), exec i s = .next t → t.mem.read k ≠ s.mem.read k →
    (∃ a src, i = .st a src ∧ k = s.dataAddress (s.reg a)) ∨
    (∃ r, i = .call r ∧ ∃ j, j < s.cfg.wordBits / 8 ∧ k = (s.pushedSp.toNat + j) % s.cfg.memSize)

/-- R40, R46, R236: only the two port instructions reach the ports and the hooks: every other instruction leaves every
port slot, the calls made, the replies to come and `blockedIn` as they were. The last three are the model's own fields
(logs 4, 5, 3). -/
def Obligations.OnlyPortInstructionsReachPortsAndHooks : Prop :=
  ∀ (i : Instr) (s t : State), exec i s = .next t → (∀ d p, i ≠ .inp d p) → (∀ p src, i ≠ .out p src) →
    SamePortsBut [] s t ∧ SameHost s t ∧ t.blockedIn = s.blockedIn

/-- With no hook installed the host's replies cannot matter: two states that differ only in them take the same step. -/
def Obligations.WithoutHooksRepliesDoNotMatter : Prop :=
  ∀ (s t : State) (replies : List HostReply), s.cfg.readHook = false → s.cfg.writeHook = false → step s = .next t →
    step { s with hostScript := replies } = .next { t with hostScript := replies }

/-- R228: a core in a hook that has not returned never leaves it, is not halted, and its run never ends. That such a
core's step answers the same state is the model's choice (log 3). -/
def Obligations.CoreInAHookThatNeverReturnsIsStuck : Prop :=
  ∀ (s : State) (c : HookCall) (n : Nat), s.Inv → s.blockedIn = some c →
    step s = .next s ∧ s.halted = false ∧ run n s = .next (.running s)

/-! ## Reset and the host -/

/-- R250: `init` zeroes every register but sp and every port, sets sp to MEM_SIZE mod 2^W, clears HALTED, binds the buffer
as it is and calls no hook. That it leaves the parameters and the record of the hook calls made as they were is the
model's choice (logs 7, 4). -/
def Obligations.InitLeavesTheStatedState : Prop :=
  ∀ (s : State) (buffer : Memory),
    (∀ r, (s.init buffer).x r = if r = spReg then s.cfg.memSize % 2 ^ s.cfg.wordBits else 0) ∧
    (∀ n, (s.init buffer).portVal n = 0) ∧ (s.init buffer).halted = false ∧ (s.init buffer).mem = buffer ∧
    (s.init buffer).cfg = s.cfg ∧ (s.init buffer).signals = s.signals

/-- The state after reset is the one `init` leaves with the spec's parameter values and an empty, zero store: pc = 0,
sp = 65536. That no hook is installed in it is the model's choice (log 1). -/
def Obligations.ResetIsInitOfAZeroStore : Prop :=
  State.reset = State.reset.init [] ∧ State.reset.x pcReg = 0 ∧ State.reset.x spReg = 65536 ∧
    State.reset.cfg.memSize = 65536 ∧ ∀ a, State.reset.mem.read a = 0

/-- R253, R6: between steps the host writes any register, port slot or byte, and nothing else with it; it clears HALTED
only through `init`; and while a hook has not returned, so that a step is in progress, it changes nothing. That a value is
reduced modulo 2^W, and that an action tried during a step changes nothing, are the model's choices (log 7). -/
def Obligations.HostWritesReachOnlyTheirTarget : Prop :=
  ∀ (s : State),
    (s.blockedIn = none →
      (∀ r v, WritesOnly s (s.hostAct (.writeReg r v)) r (v % 2 ^ s.cfg.wordBits)) ∧
      (∀ n v, (s.hostAct (.writePort n v)).portVal n = v % 2 ^ s.cfg.wordBits ∧
        SamePortsBut [n] s (s.hostAct (.writePort n v)) ∧ SameRegsBut [] s (s.hostAct (.writePort n v)) ∧
        SameMem s (s.hostAct (.writePort n v)) ∧ SameControl s (s.hostAct (.writePort n v)) ∧
        SameHost s (s.hostAct (.writePort n v))) ∧
      (∀ a b, a < s.cfg.memSize → (s.hostAct (.writeByte a b)).mem.read a = b ∧
        (∀ k, k ≠ a → (s.hostAct (.writeByte a b)).mem.read k = s.mem.read k) ∧
        SameRegsBut [] s (s.hostAct (.writeByte a b)) ∧ SamePortsBut [] s (s.hostAct (.writeByte a b)) ∧
        SameControl s (s.hostAct (.writeByte a b)) ∧ SameHost s (s.hostAct (.writeByte a b)))) ∧
    (∀ act, (∀ buffer, act ≠ .init buffer) → (s.hostAct act).halted = s.halted) ∧
    (∀ c act, s.blockedIn = some c → s.hostAct act = s)

/-- R39, R30: no register is hardwired, and writing one changes no other. -/
def Obligations.EveryRegisterReadsBackWhatWasWritten : Prop :=
  ∀ (s : State) (r q : Reg) (v : Word s.cfg.wordBits),
    (s.setReg r v).x r = v.toNat ∧ (q ≠ r → (s.setReg r v).x q = s.x q)

/-- R9: in every state W is a multiple of 8 and at least 8, M is at least 1 and at most W, so that every address of the
store fits a register, and MEM_SIZE divides 2^W. -/
def Obligations.EveryMachineHasAdmissibleParameters : Prop :=
  ∀ s : State, s.cfg.wordBits % 8 = 0 ∧ 8 ≤ s.cfg.wordBits ∧ 1 ≤ s.cfg.memBits ∧ s.cfg.memBits ≤ s.cfg.wordBits ∧
    (∀ a, a < s.cfg.memSize → a < 2 ^ s.cfg.wordBits) ∧ s.cfg.memSize ∣ 2 ^ s.cfg.wordBits
end

