-- ==== Sys2Proof/Laws/State.lean ====
section
/-! SUPPORT. One lemma for each field of each update of the state, and for each view of it. -/

/-- Eight bits fit a word (00_scope.md R9). -/
theorem Sys2Proof.Config.eight_le (c : Sys2Proof.Config) : 8 ≤ c.wordBits := c.admissible.2.1

/-- A word is a whole number of bytes (00_scope.md R9). -/
theorem Sys2Proof.Config.eight_mul_stackBytes (c : Sys2Proof.Config) : 8 * c.stackBytes = c.wordBits := by
  have h := c.admissible.1
  unfold Sys2Proof.Config.stackBytes
  omega

/-- The store has at least one byte. -/
theorem Sys2Proof.Config.memSize_pos (c : Sys2Proof.Config) : 0 < c.memSize := Nat.two_pow_pos _

namespace Sys2Proof.Machine

open Sys2Proof

section Updates

variable (s : State)

/-! ## setReg -/

@[simp] theorem State.setReg_cfg (r : Reg) {w : Nat} (v : Word w) : (s.setReg r v).cfg = s.cfg := rfl
@[simp] theorem State.setReg_mem (r : Reg) {w : Nat} (v : Word w) : (s.setReg r v).mem = s.mem := rfl
@[simp] theorem State.setReg_ports (r : Reg) {w : Nat} (v : Word w) : (s.setReg r v).ports = s.ports := rfl
@[simp] theorem State.setReg_halted (r : Reg) {w : Nat} (v : Word w) : (s.setReg r v).halted = s.halted := rfl
@[simp] theorem State.setReg_blockedIn (r : Reg) {w : Nat} (v : Word w) :
    (s.setReg r v).blockedIn = s.blockedIn := rfl
@[simp] theorem State.setReg_signals (r : Reg) {w : Nat} (v : Word w) : (s.setReg r v).signals = s.signals := rfl
@[simp] theorem State.setReg_hostScript (r : Reg) {w : Nat} (v : Word w) :
    (s.setReg r v).hostScript = s.hostScript := rfl
@[simp] theorem State.setReg_port (r : Reg) {w : Nat} (v : Word w) (n : Port) : (s.setReg r v).port n = s.port n := rfl
@[simp] theorem State.setReg_portVal (r : Reg) {w : Nat} (v : Word w) (n : Port) :
    (s.setReg r v).portVal n = s.portVal n := rfl

/-- A register reads back what was last written to it, and a write to another register does not touch it. -/
@[simp] theorem State.reg_setReg (r q : Reg) {w : Nat} (v : Word w) :
    (s.setReg r v).reg q = if q = r then v.setWidth s.cfg.wordBits else s.reg q := by
  simp only [State.reg, State.setReg, Vector.getElem_set, Fin.ext_iff, eq_comm]

/-- `State.reg_setReg` on unsigned integers. -/
@[simp] theorem State.x_setReg (r q : Reg) {w : Nat} (v : Word w) :
    (s.setReg r v).x q = if q = r then v.toNat % 2 ^ s.cfg.wordBits else s.x q := by
  simp only [State.x, State.reg_setReg]
  split
  · exact BitVec.toNat_setWidth ..
  · rfl

/-! ## setPort -/

@[simp] theorem State.setPort_cfg (n : Port) {w : Nat} (v : Word w) : (s.setPort n v).cfg = s.cfg := rfl
@[simp] theorem State.setPort_mem (n : Port) {w : Nat} (v : Word w) : (s.setPort n v).mem = s.mem := rfl
@[simp] theorem State.setPort_regs (n : Port) {w : Nat} (v : Word w) : (s.setPort n v).regs = s.regs := rfl
@[simp] theorem State.setPort_halted (n : Port) {w : Nat} (v : Word w) : (s.setPort n v).halted = s.halted := rfl
@[simp] theorem State.setPort_blockedIn (n : Port) {w : Nat} (v : Word w) :
    (s.setPort n v).blockedIn = s.blockedIn := rfl
@[simp] theorem State.setPort_signals (n : Port) {w : Nat} (v : Word w) : (s.setPort n v).signals = s.signals := rfl
@[simp] theorem State.setPort_hostScript (n : Port) {w : Nat} (v : Word w) :
    (s.setPort n v).hostScript = s.hostScript := rfl
@[simp] theorem State.setPort_hostReply (n : Port) {w : Nat} (v : Word w) :
    (s.setPort n v).hostReply = s.hostReply := rfl
@[simp] theorem State.setPort_reg (n : Port) {w : Nat} (v : Word w) (r : Reg) : (s.setPort n v).reg r = s.reg r := rfl
@[simp] theorem State.setPort_x (n : Port) {w : Nat} (v : Word w) (r : Reg) : (s.setPort n v).x r = s.x r := rfl

/-- A port slot holds what was last written to it, and a write to another slot does not touch it. -/
@[simp] theorem State.port_setPort (n m : Port) {w : Nat} (v : Word w) :
    (s.setPort n v).port m = if m = n then v.setWidth s.cfg.wordBits else s.port m := by
  simp only [State.port, State.setPort, Vector.getElem_set, Fin.ext_iff, eq_comm]

/-- `State.port_setPort` on unsigned integers. -/
@[simp] theorem State.portVal_setPort (n m : Port) {w : Nat} (v : Word w) :
    (s.setPort n v).portVal m = if m = n then v.toNat % 2 ^ s.cfg.wordBits else s.portVal m := by
  simp only [State.portVal, State.port_setPort]
  split
  · exact BitVec.toNat_setWidth ..
  · rfl

/-! ## memWrite -/

variable {w w' : Nat} (addr : Word w) (k : Nat) (v : Word w')

@[simp] theorem State.memWrite_cfg : (s.memWrite addr k v).cfg = s.cfg := rfl
@[simp] theorem State.memWrite_mem : (s.memWrite addr k v).mem = s.mem.writeLE s.cfg.memSize addr.toNat v k := rfl
@[simp] theorem State.memWrite_regs : (s.memWrite addr k v).regs = s.regs := rfl
@[simp] theorem State.memWrite_ports : (s.memWrite addr k v).ports = s.ports := rfl
@[simp] theorem State.memWrite_halted : (s.memWrite addr k v).halted = s.halted := rfl
@[simp] theorem State.memWrite_blockedIn : (s.memWrite addr k v).blockedIn = s.blockedIn := rfl
@[simp] theorem State.memWrite_signals : (s.memWrite addr k v).signals = s.signals := rfl
@[simp] theorem State.memWrite_hostScript : (s.memWrite addr k v).hostScript = s.hostScript := rfl
@[simp] theorem State.memWrite_reg (r : Reg) : (s.memWrite addr k v).reg r = s.reg r := rfl
@[simp] theorem State.memWrite_port (n : Port) : (s.memWrite addr k v).port n = s.port n := rfl
@[simp] theorem State.memWrite_x (r : Reg) : (s.memWrite addr k v).x r = s.x r := rfl
@[simp] theorem State.memWrite_portVal (n : Port) : (s.memWrite addr k v).portVal n = s.portVal n := rfl

/-! ## halt, enterHook, blockIn -/

@[simp] theorem State.halt_cfg : s.halt.cfg = s.cfg := rfl
@[simp] theorem State.halt_mem : s.halt.mem = s.mem := rfl
@[simp] theorem State.halt_regs : s.halt.regs = s.regs := rfl
@[simp] theorem State.halt_ports : s.halt.ports = s.ports := rfl
@[simp] theorem State.halt_halted : s.halt.halted = true := rfl
@[simp] theorem State.halt_blockedIn : s.halt.blockedIn = s.blockedIn := rfl
@[simp] theorem State.halt_signals : s.halt.signals = s.signals := rfl
@[simp] theorem State.halt_hostScript : s.halt.hostScript = s.hostScript := rfl
@[simp] theorem State.halt_reg (r : Reg) : s.halt.reg r = s.reg r := rfl
@[simp] theorem State.halt_port (n : Port) : s.halt.port n = s.port n := rfl
@[simp] theorem State.halt_x (r : Reg) : s.halt.x r = s.x r := rfl
@[simp] theorem State.halt_portVal (n : Port) : s.halt.portVal n = s.portVal n := rfl

@[simp] theorem State.enterHook_cfg (c : HookCall) : (s.enterHook c).cfg = s.cfg := rfl
@[simp] theorem State.enterHook_mem (c : HookCall) : (s.enterHook c).mem = s.mem := rfl
@[simp] theorem State.enterHook_regs (c : HookCall) : (s.enterHook c).regs = s.regs := rfl
@[simp] theorem State.enterHook_ports (c : HookCall) : (s.enterHook c).ports = s.ports := rfl
@[simp] theorem State.enterHook_halted (c : HookCall) : (s.enterHook c).halted = s.halted := rfl
@[simp] theorem State.enterHook_blockedIn (c : HookCall) : (s.enterHook c).blockedIn = s.blockedIn := rfl
@[simp] theorem State.enterHook_signals (c : HookCall) : (s.enterHook c).signals = c :: s.signals := rfl
@[simp] theorem State.enterHook_hostScript (c : HookCall) : (s.enterHook c).hostScript = s.hostScript.tail := rfl
@[simp] theorem State.enterHook_reg (c : HookCall) (r : Reg) : (s.enterHook c).reg r = s.reg r := rfl
@[simp] theorem State.enterHook_port (c : HookCall) (n : Port) : (s.enterHook c).port n = s.port n := rfl
@[simp] theorem State.enterHook_x (c : HookCall) (r : Reg) : (s.enterHook c).x r = s.x r := rfl
@[simp] theorem State.enterHook_portVal (c : HookCall) (n : Port) : (s.enterHook c).portVal n = s.portVal n := rfl

@[simp] theorem State.blockIn_cfg (c : HookCall) : (s.blockIn c).cfg = s.cfg := rfl
@[simp] theorem State.blockIn_mem (c : HookCall) : (s.blockIn c).mem = s.mem := rfl
@[simp] theorem State.blockIn_regs (c : HookCall) : (s.blockIn c).regs = s.regs := rfl
@[simp] theorem State.blockIn_ports (c : HookCall) : (s.blockIn c).ports = s.ports := rfl
@[simp] theorem State.blockIn_halted (c : HookCall) : (s.blockIn c).halted = s.halted := rfl
@[simp] theorem State.blockIn_blockedIn (c : HookCall) : (s.blockIn c).blockedIn = some c := rfl
@[simp] theorem State.blockIn_signals (c : HookCall) : (s.blockIn c).signals = s.signals := rfl
@[simp] theorem State.blockIn_hostScript (c : HookCall) : (s.blockIn c).hostScript = s.hostScript := rfl
@[simp] theorem State.blockIn_reg (c : HookCall) (r : Reg) : (s.blockIn c).reg r = s.reg r := rfl
@[simp] theorem State.blockIn_port (c : HookCall) (n : Port) : (s.blockIn c).port n = s.port n := rfl
@[simp] theorem State.blockIn_x (c : HookCall) (r : Reg) : (s.blockIn c).x r = s.x r := rfl
@[simp] theorem State.blockIn_portVal (c : HookCall) (n : Port) : (s.blockIn c).portVal n = s.portVal n := rfl

end Updates

/-! ## Host actions -/

/-- Between steps a host action has its effect (70_reset_and_hazards.md R253). -/
@[simp] theorem State.hostAct_between {s : State} (h : s.blockedIn = none) (act : HostAction) :
    s.hostAct act = s.hostEffect act := by
  simp [State.hostAct, h]

/-- While a hook has not returned no host action changes anything (R253, 00_scope.md R6). -/
@[simp] theorem State.hostAct_inHook {s : State} {c : HookCall} (h : s.blockedIn = some c) (act : HostAction) :
    s.hostAct act = s := by
  simp [State.hostAct, h]

/-! ## Views -/

/-- A register's value is a W-bit value. -/
theorem State.x_lt (s : State) (r : Reg) : s.x r < 2 ^ s.cfg.wordBits := (s.reg r).isLt

/-- A port slot's value is a W-bit value. -/
theorem State.portVal_lt (s : State) (n : Port) : s.portVal n < 2 ^ s.cfg.wordBits := (s.port n).isLt

@[simp] theorem State.x_mod (s : State) (r : Reg) : s.x r % 2 ^ s.cfg.wordBits = s.x r := Nat.mod_eq_of_lt (s.x_lt r)
@[simp] theorem State.portVal_mod (s : State) (n : Port) : s.portVal n % 2 ^ s.cfg.wordBits = s.portVal n :=
  Nat.mod_eq_of_lt (s.portVal_lt n)

/-- A value of the machine's own width is stored whole. -/
theorem State.word_mod (s : State) (v : Word s.cfg.wordBits) : v.toNat % 2 ^ s.cfg.wordBits = v.toNat :=
  Nat.mod_eq_of_lt v.isLt

@[simp] theorem State.toNat_reg (s : State) (r : Reg) : (s.reg r).toNat = s.x r := rfl
@[simp] theorem State.toNat_port (s : State) (n : Port) : (s.port n).toNat = s.portVal n := rfl
@[simp] theorem State.toNat_pc (s : State) : s.pc.toNat = s.x pcReg := rfl
@[simp] theorem State.toNat_sp (s : State) : s.sp.toNat = s.x spReg := rfl

/-! ## Frames -/

theorem SameRegsBut.refl (ds : List Reg) (s : State) : SameRegsBut ds s s := fun _ _ => rfl
theorem SameMem.refl (s : State) : SameMem s s := fun _ => rfl
theorem SamePortsBut.refl (ns : List Port) (s : State) : SamePortsBut ns s s := fun _ _ => rfl
theorem SameControl.refl (s : State) : SameControl s s := ⟨rfl, rfl, rfl⟩
theorem SameHost.refl (s : State) : SameHost s s := ⟨rfl, rfl⟩

/-- All that a register write does (00_scope.md R12). -/
theorem State.setReg_writesOnly (s : State) (r : Reg) {w : Nat} (v : Word w) :
    WritesOnly s (s.setReg r v) r (v.toNat % 2 ^ s.cfg.wordBits) :=
  ⟨by simp, fun q hq => by simp only [List.mem_singleton] at hq; simp [hq], fun _ => rfl, fun _ _ => rfl,
    ⟨rfl, rfl, rfl⟩, rfl, rfl⟩

/-- All that writing a word of the machine's own width does. -/
theorem State.setReg_word (s : State) (r : Reg) (v : Word s.cfg.wordBits) :
    WritesOnly s (s.setReg r v) r v.toNat := by
  have h := s.setReg_writesOnly r v
  rwa [s.word_mod v] at h

/-- All that a halt does. -/
theorem State.halt_haltsOnly (s : State) : HaltsOnly s s.halt :=
  ⟨rfl, rfl, rfl, fun _ _ => rfl, fun _ => rfl, fun _ _ => rfl, rfl, rfl⟩

end Sys2Proof.Machine
end

