-- ==== Sys2Proof/Laws/Decode.lean ====
section
/-! SUPPORT. The laws of the decoder's parts. -/

namespace Sys2Proof

/-- The register an operand byte names is the byte modulo 128 (10_state.md R31). -/
theorem regOf_val (b : Byte) : (regOf b).val = b.toNat % 128 := by
  simp only [regOf, BitVec.toNat_and]
  exact Nat.and_two_pow_sub_one_eq_mod b.toNat 7

/-- A register's operand byte names it. -/
@[simp] theorem regOf_regByte (r : Reg) : regOf (regByte r) = r := by
  have h := r.isLt
  apply Fin.ext
  rw [regOf_val, regByte, BitVec.toNat_ofNat]
  omega

/-- The operand byte of the register a byte names is that byte with bit 7 clear. -/
theorem regByte_regOf (b : Byte) : regByte (regOf b) = b &&& 0x7F := by
  apply BitVec.eq_of_toNat_eq
  rw [regByte, BitVec.toNat_ofNat, regOf_val, BitVec.toNat_and,
    show (0x7F : Byte).toNat = 2 ^ 7 - 1 from rfl, Nat.and_two_pow_sub_one_eq_mod]
  omega

/-! ## What a byte string of each format decodes to, and that it decodes to nothing else -/

theorem takeReg1_ok {f : Reg → Instr} {bs rest : List Byte} {i : Instr} :
    takeReg1 f bs = .ok (i, rest) ↔ ∃ r, bs = r :: rest ∧ i = f (regOf r) := by
  rcases bs with _ | ⟨r, bs⟩
  · simp [takeReg1]
  · simp [takeReg1]; tauto

theorem takeReg2_ok {f : Reg → Reg → Instr} {bs rest : List Byte} {i : Instr} :
    takeReg2 f bs = .ok (i, rest) ↔ ∃ q r, bs = q :: r :: rest ∧ i = f (regOf q) (regOf r) := by
  rcases bs with _ | ⟨q, _ | ⟨r, bs⟩⟩
  · simp [takeReg2]
  · simp [takeReg2]
  · simp [takeReg2]; tauto

theorem takeReg3_ok {f : Reg → Reg → Reg → Instr} {bs rest : List Byte} {i : Instr} :
    takeReg3 f bs = .ok (i, rest) ↔ ∃ p q r, bs = p :: q :: r :: rest ∧ i = f (regOf p) (regOf q) (regOf r) := by
  rcases bs with _ | ⟨p, _ | ⟨q, _ | ⟨r, bs⟩⟩⟩
  · simp [takeReg3]
  · simp [takeReg3]
  · simp [takeReg3]
  · simp [takeReg3]; tauto

theorem takeRegByte_ok {f : Reg → Byte → Instr} {bs rest : List Byte} {i : Instr} :
    takeRegByte f bs = .ok (i, rest) ↔ ∃ d v, bs = d :: v :: rest ∧ i = f (regOf d) v := by
  rcases bs with _ | ⟨d, _ | ⟨v, bs⟩⟩
  · simp [takeRegByte]
  · simp [takeRegByte]
  · simp [takeRegByte]; tauto

theorem takeRegByteByte_ok {f : Reg → Byte → Byte → Instr} {bs rest : List Byte} {i : Instr} :
    takeRegByteByte f bs = .ok (i, rest) ↔ ∃ d h l, bs = d :: h :: l :: rest ∧ i = f (regOf d) h l := by
  rcases bs with _ | ⟨d, _ | ⟨h, _ | ⟨l, bs⟩⟩⟩
  · simp [takeRegByteByte]
  · simp [takeRegByteByte]
  · simp [takeRegByteByte]
  · simp [takeRegByteByte]; tauto

/-! ## The first-byte map, row by row (30_encoding.md R99) -/

section FirstByte

variable (hasMod : Bool) (rest : List Byte)

theorem decode_halt : decode hasMod (0x00 :: rest) = .ok (.halt, rest) := rfl
theorem decode_skipTab : decode hasMod (0x09 :: rest) = .ok (.skipTab, rest) := rfl
theorem decode_skipNewline : decode hasMod (0x0A :: rest) = .ok (.skipNewline, rest) := rfl
theorem decode_skipVerticalTab : decode hasMod (0x0B :: rest) = .ok (.skipVerticalTab, rest) := rfl
theorem decode_skipFormFeed : decode hasMod (0x0C :: rest) = .ok (.skipFormFeed, rest) := rfl
theorem decode_skipCarriageReturn : decode hasMod (0x0D :: rest) = .ok (.skipCarriageReturn, rest) := rfl
theorem decode_skipSpace : decode hasMod (0x20 :: rest) = .ok (.skipSpace, rest) := rfl
theorem decode_st : decode hasMod (0x21 :: rest) = takeReg2 .st rest := rfl
theorem decode_and : decode hasMod (0x26 :: rest) = takeReg3 .and rest := rfl
theorem decode_mul : decode hasMod (0x2A :: rest) = takeReg3 .mul rest := rfl
theorem decode_add : decode hasMod (0x2B :: rest) = takeReg3 .add rest := rfl
theorem decode_ret : decode hasMod (0x2C :: rest) = .ok (.ret, rest) := rfl
theorem decode_sub : decode hasMod (0x2D :: rest) = takeReg3 .sub rest := rfl
theorem decode_jmp : decode hasMod (0x2E :: rest) = takeReg1 .jmp rest := rfl
theorem decode_div : decode hasMod (0x2F :: rest) = takeReg3 .div rest := rfl
theorem decode_colon : decode hasMod (0x3A :: rest) = decodeColon rest := rfl
theorem decode_call : decode hasMod (0x3B :: rest) = takeReg1 .call rest := rfl
theorem decode_shl : decode hasMod (0x3C :: rest) = takeReg3 .shl rest := rfl
theorem decode_shr : decode hasMod (0x3E :: rest) = takeReg3 .shr rest := rfl
theorem decode_question : decode hasMod (0x3F :: rest) = decodeQuestion rest := rfl
theorem decode_ld : decode hasMod (0x40 :: rest) = takeReg2 .ld rest := rfl
theorem decode_xor : decode hasMod (0x5E :: rest) = takeReg3 .xor rest := rfl
theorem decode_inp : decode hasMod (0x7B :: rest) = takeReg2 .inp rest := rfl
theorem decode_or : decode hasMod (0x7C :: rest) = takeReg3 .or rest := rfl
theorem decode_out : decode hasMod (0x7D :: rest) = takeReg2 .out rest := rfl
theorem decode_not : decode hasMod (0x7E :: rest) = takeReg2 .not rest := rfl
theorem decode_mod : decode true (0x25 :: rest) = takeReg3 .mod rest := rfl

end FirstByte

/-- Every first byte is one that the map lists, or unknown. -/
theorem firstByte_cases (hasMod : Bool) (op : Byte) :
    op = 0x00 ∨ op = 0x09 ∨ op = 0x0A ∨ op = 0x0B ∨ op = 0x0C ∨ op = 0x0D ∨ op = 0x20 ∨ op = 0x21 ∨ op = 0x26 ∨
    op = 0x2A ∨ op = 0x2B ∨ op = 0x2C ∨ op = 0x2D ∨ op = 0x2E ∨ op = 0x2F ∨ op = 0x3A ∨ op = 0x3B ∨ op = 0x3C ∨
    op = 0x3E ∨ op = 0x3F ∨ op = 0x40 ∨ op = 0x5E ∨ op = 0x7B ∨ op = 0x7C ∨ op = 0x7D ∨ op = 0x7E ∨
    (op = 0x25 ∧ hasMod = true) ∨ isUnknownOpcode hasMod op = true := by
  revert hasMod op
  decide +kernel

/-- An unknown opcode byte decodes to its halt (40_fetch_decode.md R127). -/
theorem decode_unknown {hasMod : Bool} {op : Byte} (h : isUnknownOpcode hasMod op = true) (rest : List Byte) :
    decode hasMod (op :: rest) = .ok (.haltUnknown op, rest) := by
  simp only [isUnknownOpcode, knownFirstBytes, whitespaceBytes, List.cons_append, List.nil_append, Bool.and_eq_true,
    Bool.not_eq_true', List.contains_eq_mem, decide_eq_false_iff_not, List.mem_cons, not_or] at h
  obtain ⟨⟨h00, h21, h26, h2A, h2B, h2C, h2D, h2E, h2F, h3A, h3B, h3C, h3E, h3F, h40, h5E, h7B, h7C, h7D, h7E, h20, h09,
    h0A, h0B, h0C, h0D, -⟩, h25⟩ := h
  have h25' : ¬(op = 0x25 ∧ hasMod = true) := by
    rintro ⟨rfl, rfl⟩
    exact absurd h25 (by decide)
  rw [decode, if_neg h00, if_neg h09, if_neg h0A, if_neg h0B, if_neg h0C, if_neg h0D, if_neg h20, if_neg h21, if_neg h25',
    if_neg h26, if_neg h2A, if_neg h2B, if_neg h2C, if_neg h2D, if_neg h2E, if_neg h2F, if_neg h3A, if_neg h3B, if_neg h3C,
    if_neg h3E, if_neg h3F, if_neg h40, if_neg h5E, if_neg h7B, if_neg h7C, if_neg h7D, if_neg h7E]

/-! ## The second-byte maps (R100, R101) -/

section SecondByte

variable (rest : List Byte)

theorem decodeColon_ldb : decodeColon (0x27 :: rest) = takeRegByte .ldb rest := rfl
theorem decodeColon_ldx : decodeColon (0x23 :: rest) = takeRegByteByte .ldx rest := rfl
theorem decodeColon_mov : decodeColon (0x3D :: rest) = takeReg2 .mov rest := rfl
theorem decodeQuestion_jeq : decodeQuestion (0x3D :: rest) = takeReg3 .jeq rest := rfl
theorem decodeQuestion_jne : decodeQuestion (0x21 :: rest) = takeReg3 .jne rest := rfl
theorem decodeQuestion_jlt : decodeQuestion (0x3C :: rest) = takeReg3 .jlt rest := rfl
theorem decodeQuestion_jgt : decodeQuestion (0x3E :: rest) = takeReg3 .jgt rest := rfl

/-- Every byte after `:` selects a sub-mode or none. -/
theorem colonByte_cases (m : Byte) : m = 0x27 ∨ m = 0x23 ∨ m = 0x3D ∨ isBadMode m = true := by
  revert m
  decide +kernel

/-- Every byte after `?` selects a comparison or none. -/
theorem questionByte_cases (c : Byte) : c = 0x3D ∨ c = 0x21 ∨ c = 0x3C ∨ c = 0x3E ∨ isBadCmp c = true := by
  revert c
  decide +kernel

/-- An unknown sub-mode byte ends the instruction (42_load_immediate.md R174). -/
theorem decodeColon_bad {m : Byte} (h : isBadMode m = true) : decodeColon (m :: rest) = .ok (.haltBadMode m, rest) := by
  simp only [isBadMode, Bool.not_eq_true', List.contains_eq_mem, decide_eq_false_iff_not, List.mem_cons, not_or] at h
  obtain ⟨h27, h23, h3D, -⟩ := h
  rw [decodeColon, if_neg h27, if_neg h23, if_neg h3D]

/-- An unknown comparison byte ends the instruction (44_control.md R208). -/
theorem decodeQuestion_bad {c : Byte} (h : isBadCmp c = true) :
    decodeQuestion (c :: rest) = .ok (.haltBadCmp c, rest) := by
  simp only [isBadCmp, Bool.not_eq_true', List.contains_eq_mem, decide_eq_false_iff_not, List.mem_cons, not_or] at h
  obtain ⟨h3D, h21, h3C, h3E, -⟩ := h
  rw [decodeQuestion, if_neg h3D, if_neg h21, if_neg h3C, if_neg h3E]

end SecondByte

end Sys2Proof
end

