-- ==== Sys2Proof/Laws/Memory.lean ====
section
/-! SUPPORT. The laws of the Program Store: read after write, the canonical form, little-endian words. -/

namespace Sys2Proof.Machine

open Sys2Proof

/-! ## One cell -/

theorem Memory.read_filter (m : Memory) (x y : Nat) :
    Memory.read (m.filter (fun c => c.1 != x)) y = if y = x then unlistedByte else m.read y := by
  induction m with
  | nil => simp [Memory.read]
  | cons c rest ih =>
    obtain ⟨a, b⟩ := c
    by_cases hax : a = x
    · subst hax
      simp only [bne_self_eq_false, Bool.false_eq_true, not_false_eq_true, List.filter_cons_of_neg, ih, Memory.read]
      by_cases hya : y = a <;> simp [hya, eq_comm]
    · have hb : (a != x) = true := by simpa using hax
      simp only [List.filter_cons, hb, if_true, Memory.read, ih]
      by_cases hay : a = y
      · subst hay; simp [hax]
      · simp [hay]

theorem Memory.read_insert (m : Memory) (x y : Nat) (v : Byte) (h : ∀ c ∈ m, c.1 ≠ x) :
    Memory.read (Memory.insert x v m) y = if y = x then v else m.read y := by
  induction m with
  | nil => simp [Memory.insert, Memory.read, eq_comm]
  | cons c rest ih =>
    obtain ⟨a, b⟩ := c
    have hax : a ≠ x := h (a, b) (by simp)
    simp only [Memory.insert]
    split
    · by_cases hy : x = y <;> simp [Memory.read, hy, eq_comm]
    · simp only [Memory.read, ih (fun c hc => h c (by simp [hc]))]
      by_cases hay : a = y
      · subst hay; simp [hax]
      · simp [hay]

/-- A read after a write gives the byte written at the cell written, and the old byte anywhere else. -/
theorem Memory.read_write (m : Memory) (x y : Nat) (v : Byte) :
    (m.write x v).read y = if y = x then v else m.read y := by
  unfold Memory.write
  split
  · next h => rw [Memory.read_filter, h]
  · rw [Memory.read_insert, Memory.read_filter]
    · by_cases hy : y = x <;> simp [hy]
    · intro c hc
      simpa using (List.mem_filter.mp hc).2

theorem Memory.mem_insert {x : Nat} {v : Byte} {m : Memory} {c : Host.Cell} :
    c ∈ Memory.insert x v m ↔ c = (x, v) ∨ c ∈ m := by
  induction m with
  | nil => simp [Memory.insert]
  | cons d rest ih =>
    simp only [Memory.insert]
    split
    · simp
    · simp only [List.mem_cons, ih]; tauto

theorem Memory.pairwise_insert {x : Nat} {v : Byte} {m : Memory} (hm : m.Pairwise (fun c c' => c.1 < c'.1))
    (hx : ∀ c ∈ m, c.1 ≠ x) : (Memory.insert x v m).Pairwise (fun c c' => c.1 < c'.1) := by
  induction m with
  | nil => simp [Memory.insert]
  | cons d rest ih =>
    rw [List.pairwise_cons] at hm
    have hdx : d.1 ≠ x := hx d (by simp)
    simp only [Memory.insert]
    split
    · next h =>
      refine List.pairwise_cons.mpr ⟨?_, List.pairwise_cons.mpr hm⟩
      intro c hc
      rcases List.mem_cons.mp hc with rfl | hc
      · exact h
      · exact Nat.lt_trans h (hm.1 c hc)
    · next h =>
      refine List.pairwise_cons.mpr ⟨?_, ih hm.2 (fun c hc => hx c (by simp [hc]))⟩
      intro c hc
      rcases Memory.mem_insert.mp hc with rfl | hc
      · exact Nat.lt_of_le_of_ne (Nat.le_of_not_lt h) hdx
      · exact hm.1 c hc

/-- A write keeps the canonical form. -/
theorem Memory.wf_write {m : Memory} (hm : m.wf) (x : Nat) (v : Byte) : (m.write x v).wf := by
  have hf : (m.filter (fun c => c.1 != x)).Pairwise (fun c c' => c.1 < c'.1) := hm.1.filter _
  have hv : ∀ c ∈ m.filter (fun c => c.1 != x), c.2 ≠ unlistedByte := fun c hc => hm.2 c (List.mem_filter.mp hc).1
  have hx : ∀ c ∈ m.filter (fun c => c.1 != x), c.1 ≠ x := fun c hc => by simpa using (List.mem_filter.mp hc).2
  unfold Memory.write
  split
  · exact ⟨hf, hv⟩
  · next h =>
    refine ⟨Memory.pairwise_insert hf hx, fun c hc => ?_⟩
    rcases Memory.mem_insert.mp hc with rfl | hc
    · exact h
    · exact hv c hc

/-- A write at an index of the store keeps every listed address an index of it. -/
theorem Memory.within_write {m : Memory} {size x : Nat} (hm : m.within size) (hx : x < size) (v : Byte) :
    (m.write x v).within size := by
  intro c hc
  unfold Memory.write at hc
  split at hc
  · exact hm c (List.mem_filter.mp hc).1
  · rcases Memory.mem_insert.mp hc with rfl | hc
    · exact hx
    · exact hm c (List.mem_filter.mp hc).1

/-- An empty store is in canonical form. -/
theorem Memory.wf_nil : Memory.wf [] := ⟨List.Pairwise.nil, by simp⟩

/-! ## Little-endian words -/

theorem Memory.wf_writeLE {m : Memory} (hm : m.wf) (size addr : Nat) {w : Nat} (v : Word w) (n : Nat) :
    (m.writeLE size addr v n).wf := by
  induction n with
  | zero => exact hm
  | succ n ih => exact Memory.wf_write ih _ _

theorem Memory.within_writeLE {m : Memory} {size : Nat} (hm : m.within size) (hs : 0 < size) (addr : Nat) {w : Nat}
    (v : Word w) (n : Nat) : (m.writeLE size addr v n).within size := by
  induction n with
  | zero => exact hm
  | succ n ih => exact Memory.within_write ih (Nat.mod_lt _ hs) _

/-- A byte outside the n bytes written reads as before. -/
theorem Memory.read_writeLE_other (m : Memory) (size addr : Nat) {w : Nat} (v : Word w) (n a : Nat)
    (h : ∀ k, k < n → a ≠ (addr + k) % size) : (m.writeLE size addr v n).read a = m.read a := by
  induction n with
  | zero => rfl
  | succ n ih =>
    rw [Memory.writeLE, Memory.read_write, if_neg (h n (Nat.lt_succ_self n))]
    exact ih (fun k hk => h k (Nat.lt_succ_of_lt hk))

/-- Byte k of the n bytes written reads as bits 8k+7 to 8k of the value, where no later byte wraps to its address. -/
theorem Memory.read_writeLE (m : Memory) (size addr : Nat) {w : Nat} (v : Word w) (n k : Nat) (hk : k < n)
    (h : ∀ j, k < j → j < n → (addr + j) % size ≠ (addr + k) % size) :
    (m.writeLE size addr v n).read ((addr + k) % size) = v.extractLsb' (8 * k) 8 := by
  induction n with
  | zero => omega
  | succ n ih =>
    rw [Memory.writeLE, Memory.read_write]
    by_cases hkn : k = n
    · simp [hkn]
    · have hlt : k < n := by omega
      rw [if_neg (fun he => h n hlt (Nat.lt_succ_self n) he.symm)]
      exact ih hlt (fun j h1 h2 => h j h1 (Nat.lt_succ_of_lt h2))

/-- The bytes of a word as the spec writes them: bits 8k+7 to 8k (20_memory.md R65). -/
theorem extractByte_eq_byteOf {w : Nat} (v : Word w) (k : Nat) : v.extractLsb' (8 * k) 8 = byteOf v.toNat k := by
  apply BitVec.eq_of_toNat_eq
  simp [byteOf, Nat.shiftRight_eq_div_pow, Nat.pow_mul]

/-- n bytes make a value below 256^n. -/
theorem littleEndian_lt (f : Nat → Byte) (n : Nat) : littleEndian f n < 256 ^ n := by
  induction n with
  | zero => simp [littleEndian]
  | succ n ih =>
    have hb : (f n).toNat < 256 := (f n).isLt
    have hm : (f n).toNat * 256 ^ n ≤ 255 * 256 ^ n := Nat.mul_le_mul_right _ (by omega)
    rw [littleEndian, Nat.pow_succ]
    omega

/-- Two byte sequences that agree below n make the same value. -/
theorem littleEndian_congr {f g : Nat → Byte} {n : Nat} (h : ∀ k, k < n → f k = g k) :
    littleEndian f n = littleEndian g n := by
  induction n with
  | zero => rfl
  | succ n ih =>
    rw [littleEndian, littleEndian, ih (fun k hk => h k (Nat.lt_succ_of_lt hk)), h n (Nat.lt_succ_self n)]

/-- The bytes of a value, put together again, are the value modulo 256^n. -/
theorem littleEndian_byteOf (v n : Nat) : littleEndian (byteOf v) n = v % 256 ^ n := by
  induction n with
  | zero => simp [littleEndian, Nat.mod_one]
  | succ n ih =>
    rw [littleEndian, ih, Nat.pow_succ, Nat.mod_mul]
    simp [byteOf, Nat.mul_comm]

/-- `MemRead` is the little-endian value of the bytes read, while they fit the word (20_memory.md R64). -/
theorem Memory.toNat_readLE (m : Memory) (size addr w n : Nat) (h : 8 * n ≤ w) :
    (m.readLE size addr w n).toNat = littleEndian (fun k => m.read ((addr + k) % size)) n := by
  induction n with
  | zero => simp [Memory.readLE, littleEndian]
  | succ n ih =>
    have ih := ih (by omega)
    have hlt := littleEndian_lt (fun k => m.read ((addr + k) % size)) n
    have hpow : (256 : Nat) ^ n = 2 ^ (8 * n) := by rw [Nat.pow_mul]
    have hb : (m.read ((addr + n) % size)).toNat < 256 := (m.read _).isLt
    have hw : (m.read ((addr + n) % size)).toNat < 2 ^ w :=
      Nat.lt_of_lt_of_le hb (by
        calc 256 = 2 ^ 8 := by norm_num
          _ ≤ 2 ^ w := Nat.pow_le_pow_right (by omega) (by omega))
    have hsh : (m.read ((addr + n) % size)).toNat * 2 ^ (8 * n) < 2 ^ w := by
      calc (m.read ((addr + n) % size)).toNat * 2 ^ (8 * n) < 256 * 2 ^ (8 * n) :=
            Nat.mul_lt_mul_of_pos_right hb (Nat.two_pow_pos _)
        _ = 2 ^ (8 * n + 8) := by rw [Nat.pow_add]; omega
        _ ≤ 2 ^ w := Nat.pow_le_pow_right (by omega) (by omega)
    have hs : (m.read ((addr + n) % size)).toNat <<< (8 * n) % 2 ^ w
        = (m.read ((addr + n) % size)).toNat <<< (8 * n) := by
      rw [Nat.shiftLeft_eq]; exact Nat.mod_eq_of_lt hsh
    rw [Memory.readLE, littleEndian, BitVec.toNat_or, ih, BitVec.toNat_shiftLeft, BitVec.toNat_setWidth,
      Nat.mod_eq_of_lt hw, hs, Nat.or_comm, Nat.shiftLeft_eq, Nat.mul_comm,
      ← Nat.two_pow_add_eq_or_of_lt (hpow ▸ hlt), hpow, Nat.add_comm, Nat.mul_comm]

/-- `MemRead` of one byte, in a word of at least 8 bits. -/
theorem Memory.toNat_readLE_one (m : Memory) (size addr w : Nat) (h : 8 ≤ w) :
    (m.readLE size addr w 1).toNat = (m.read (addr % size)).toNat := by
  rw [Memory.toNat_readLE _ _ _ _ _ (by omega)]
  simp [littleEndian]

/-! ## Loading -/

theorem Memory.wf_load {m : Memory} (hm : m.wf) (size a : Nat) (bs : List Byte) : (m.load size a bs).wf := by
  induction bs generalizing m a with
  | nil => exact hm
  | cons b rest ih =>
    simp only [Memory.load]
    split
    · exact ih (Memory.wf_write hm _ _) _
    · exact ih hm _

theorem Memory.within_load {m : Memory} {size : Nat} (hm : m.within size) (a : Nat) (bs : List Byte) :
    (m.load size a bs).within size := by
  induction bs generalizing m a with
  | nil => exact hm
  | cons b rest ih =>
    simp only [Memory.load]
    split
    · next h => exact ih (Memory.within_write hm h _) _
    · exact ih hm _

end Sys2Proof.Machine
end

