-- ==== Sys2Proof/Laws/Ops.lean ====
section
/-! SUPPORT. One lemma for each shared operation: all that it can do. -/

namespace Sys2Proof.Machine

open Sys2Proof

/-! ## pc, sp, stack -/

/-- All that moving pc past n bytes does (40_fetch_decode.md R121). -/
theorem State.advance_writesOnly (s : State) (n : Nat) :
    WritesOnly s (s.advance n) pcReg ((s.x pcReg + n) % 2 ^ s.cfg.wordBits) := by
  have h := s.setReg_word pcReg (s.pc + BitVec.ofNat s.cfg.wordBits n)
  simpa [State.advance, State.setPc] using h

@[simp] theorem State.advance_cfg (s : State) (n : Nat) : (s.advance n).cfg = s.cfg := rfl
@[simp] theorem State.advance_mem (s : State) (n : Nat) : (s.advance n).mem = s.mem := rfl
@[simp] theorem State.advance_halted (s : State) (n : Nat) : (s.advance n).halted = s.halted := rfl
@[simp] theorem State.advance_blockedIn (s : State) (n : Nat) : (s.advance n).blockedIn = s.blockedIn := rfl
@[simp] theorem State.advance_signals (s : State) (n : Nat) : (s.advance n).signals = s.signals := rfl
@[simp] theorem State.advance_hostScript (s : State) (n : Nat) : (s.advance n).hostScript = s.hostScript := rfl
@[simp] theorem State.advance_portVal (s : State) (n : Nat) (p : Port) : (s.advance n).portVal p = s.portVal p := rfl

/-- All that a taken or untaken jump does (44_control.md R201). -/
theorem State.jumpIf_writesOnly (s : State) (c : Bool) {w : Nat} (target : Word w) :
    WritesOnly s (s.jumpIf c target) pcReg (if c = true then target.toNat % 2 ^ s.cfg.wordBits else s.x pcReg) := by
  cases c
  · exact ⟨rfl, SameRegsBut.refl _ _, SameMem.refl _, SamePortsBut.refl _ _, SameControl.refl _, SameHost.refl _⟩
  · exact s.setReg_writesOnly pcReg target

@[simp] theorem State.push_cfg (s : State) {w : Nat} (v : Word w) : (s.push v).cfg = s.cfg := rfl
@[simp] theorem State.push_mem (s : State) {w : Nat} (v : Word w) :
    (s.push v).mem = s.mem.writeLE s.cfg.memSize s.pushedSp.toNat v s.cfg.stackBytes := rfl
@[simp] theorem State.push_halted (s : State) {w : Nat} (v : Word w) : (s.push v).halted = s.halted := rfl
@[simp] theorem State.push_blockedIn (s : State) {w : Nat} (v : Word w) : (s.push v).blockedIn = s.blockedIn := rfl
@[simp] theorem State.push_signals (s : State) {w : Nat} (v : Word w) : (s.push v).signals = s.signals := rfl
@[simp] theorem State.push_hostScript (s : State) {w : Nat} (v : Word w) :
    (s.push v).hostScript = s.hostScript := rfl
@[simp] theorem State.push_portVal (s : State) {w : Nat} (v : Word w) (n : Port) :
    (s.push v).portVal n = s.portVal n := rfl

/-- A push moves sp and no other register (20_memory.md R67). -/
@[simp] theorem State.push_x (s : State) {w : Nat} (v : Word w) (r : Reg) :
    (s.push v).x r = if r = spReg then s.pushedSp.toNat else s.x r := by
  simp [State.push, State.setSp]

/-- Where a push puts sp, in the spec's integers (R67). -/
theorem State.pushedSp_toNat (s : State) :
    (s.pushedSp.toNat : Int) = ((s.x spReg : Int) - (s.cfg.wordBits / 8 : Nat)) % (2 ^ s.cfg.wordBits : Int) := by
  have hx := s.x_lt spReg
  have hb : s.cfg.wordBits / 8 < 2 ^ s.cfg.wordBits :=
    Nat.lt_of_le_of_lt (Nat.div_le_self _ _) Nat.lt_two_pow_self
  rw [State.pushedSp, BitVec.toNat_sub, State.toNat_sp, BitVec.toNat_ofNat, Config.stackBytes, Nat.mod_eq_of_lt hb]
  push_cast [Nat.cast_sub hb.le]
  rw [sub_add_eq_add_sub, add_sub_assoc, Int.add_emod_left]

@[simp] theorem State.popState_cfg (s : State) : s.popState.cfg = s.cfg := rfl
@[simp] theorem State.popState_mem (s : State) : s.popState.mem = s.mem := rfl
@[simp] theorem State.popState_halted (s : State) : s.popState.halted = s.halted := rfl
@[simp] theorem State.popState_blockedIn (s : State) : s.popState.blockedIn = s.blockedIn := rfl
@[simp] theorem State.popState_signals (s : State) : s.popState.signals = s.signals := rfl
@[simp] theorem State.popState_hostScript (s : State) : s.popState.hostScript = s.hostScript := rfl
@[simp] theorem State.popState_portVal (s : State) (n : Port) : s.popState.portVal n = s.portVal n := rfl

/-- A pop moves sp and no other register (R68). -/
@[simp] theorem State.popState_x (s : State) (r : Reg) :
    s.popState.x r = if r = spReg then (s.x spReg + s.cfg.wordBits / 8) % 2 ^ s.cfg.wordBits else s.x r := by
  simp [State.popState, State.setSp, Config.stackBytes]

/-- The value popped is the little-endian word at sp (R68). -/
theorem State.popValue_toNat (s : State) :
    s.popValue.toNat
      = littleEndian (fun k => s.mem.read ((s.x spReg + k) % s.cfg.memSize)) (s.cfg.wordBits / 8) := by
  rw [State.popValue, State.memRead, Config.stackBytes, Memory.toNat_readLE _ _ _ _ _ (Nat.mul_div_le _ _),
    State.toNat_sp]

/-! ## Hooks -/

/-- How a hook call on a port read can end (43_memory_port.md R186, 60_exceptions.md R225, R228). -/
theorem State.portRead_cases (s : State) (n : Port) :
    (s.cfg.readHook = false ∧ s.portRead n = .returned s) ∨
    (s.cfg.readHook = true ∧ s.hostReply = .keeps ∧ s.portRead n = .returned (s.enterHook (.aboutToRead n))) ∨
    (∃ v, s.cfg.readHook = true ∧ s.hostReply = .writes v ∧
      s.portRead n = .returned ((s.enterHook (.aboutToRead n)).setPort n (BitVec.ofNat s.cfg.wordBits v))) ∨
    (s.cfg.readHook = true ∧ s.hostReply = .blocks ∧
      s.portRead n = .blocked ((s.enterHook (.aboutToRead n)).blockIn (.aboutToRead n))) ∨
    (∃ v, s.cfg.readHook = true ∧ s.hostReply = .writesThenBlocks v ∧
      s.portRead n = .blocked (((s.enterHook (.aboutToRead n)).setPort n (BitVec.ofNat s.cfg.wordBits v)).blockIn
        (.aboutToRead n))) := by
  unfold State.portRead State.callReadHook
  cases hh : s.cfg.readHook <;> cases hr : s.hostReply <;> simp

/-- How a hook call on a port write can end (R187, R226, R228). -/
theorem State.portWrite_cases (s : State) (n : Port) {w : Nat} (v : Word w) :
    (s.cfg.writeHook = false ∧ s.portWrite n v = .returned (s.setPort n v)) ∨
    (s.cfg.writeHook = true ∧ s.hostReply.neverReturns = false ∧
      s.portWrite n v = .returned ((s.setPort n v).enterHook (.wasWritten n))) ∨
    (s.cfg.writeHook = true ∧ s.hostReply.neverReturns = true ∧
      s.portWrite n v = .blocked (((s.setPort n v).enterHook (.wasWritten n)).blockIn (.wasWritten n))) := by
  unfold State.portWrite State.callWriteHook
  cases hh : s.cfg.writeHook <;> cases hr : s.hostReply <;> simp [hr, HostReply.neverReturns]

/-! ## Fetch -/

/-- All that an out-of-range fetch does (40_fetch_decode.md R122). -/
theorem State.fetchOutOfRange_does (s : State) :
    s.fetchOutOfRange.halted = true ∧ s.fetchOutOfRange.x pcReg = s.cfg.pcAfterFailedFetch (s.x pcReg) ∧
      SameRegsBut [pcReg] s s.fetchOutOfRange ∧ SameMem s s.fetchOutOfRange ∧ SamePortsBut [] s s.fetchOutOfRange ∧
      SameHost s s.fetchOutOfRange ∧ s.fetchOutOfRange.cfg = s.cfg ∧
      s.fetchOutOfRange.blockedIn = s.blockedIn := by
  unfold State.fetchOutOfRange Config.pcAfterFailedFetch
  cases s.cfg.oobFetchPc
  · exact ⟨rfl, rfl, SameRegsBut.refl _ _, fun _ => rfl, fun _ _ => rfl, ⟨rfl, rfl⟩, rfl, rfl⟩
  · obtain ⟨hv, hr, -⟩ := s.advance_writesOnly 1
    exact ⟨rfl, hv, hr, fun _ => rfl, fun _ _ => rfl, ⟨rfl, rfl⟩, rfl, rfl⟩

/-- The fetched bytes are the store's at pc and after, each address before the bound (R121). -/
theorem fetchBytes_get {size : Nat} {mem : Memory} {w : Nat} (pc : Word w) (n k : Nat) (b : Byte)
    (h : (fetchBytes size mem pc n)[k]? = some b) :
    (pc.toNat + k) % 2 ^ w < size ∧ mem.read ((pc.toNat + k) % 2 ^ w) = b := by
  induction n generalizing pc k with
  | zero => simp [fetchBytes] at h
  | succ n ih =>
    unfold fetchBytes at h
    split at h
    · simp at h
    · next hpc =>
      cases k with
      | zero =>
        simp only [List.getElem?_cons_zero, Option.some.injEq] at h
        rw [Nat.add_zero, Nat.mod_eq_of_lt pc.isLt]
        exact ⟨by omega, h⟩
      | succ k =>
        rw [List.getElem?_cons_succ] at h
        have h2 := ih (pc + 1) k h
        have he : ((pc + 1).toNat + k) % 2 ^ w = (pc.toNat + (k + 1)) % 2 ^ w := by
          rw [BitVec.toNat_add, Nat.mod_add_mod, show (1 : Word w).toNat = 1 % 2 ^ w from BitVec.toNat_ofNat ..]
          rw [Nat.add_assoc, Nat.add_comm (1 % 2 ^ w), ← Nat.add_assoc, Nat.add_mod_mod, Nat.add_assoc]
        rwa [he] at h2

theorem fetchBytes_length_le {size : Nat} {mem : Memory} {w : Nat} (pc : Word w) (n : Nat) :
    (fetchBytes size mem pc n).length ≤ n := by
  induction n generalizing pc with
  | zero => simp [fetchBytes]
  | succ n ih =>
    unfold fetchBytes
    split
    · simp
    · simpa using ih (pc + 1)

/-- Where fewer bytes were fetched than asked for, the next address is at or beyond the bound (R122). -/
theorem fetchBytes_stops {size : Nat} {mem : Memory} {w : Nat} (pc : Word w) (n : Nat)
    (h : (fetchBytes size mem pc n).length < n) :
    size ≤ (pc.toNat + (fetchBytes size mem pc n).length) % 2 ^ w := by
  induction n generalizing pc with
  | zero => simp at h
  | succ n ih =>
    unfold fetchBytes at h ⊢
    split at h
    · next hpc => simp only [hpc, if_true, List.length_nil, Nat.add_zero, Nat.mod_eq_of_lt pc.isLt]
    · next hpc =>
      simp only [hpc, if_false, List.length_cons] at h ⊢
      have h2 := ih (pc + 1) (by omega)
      have he : ∀ k, ((pc + 1).toNat + k) % 2 ^ w = (pc.toNat + (k + 1)) % 2 ^ w := by
        intro k
        rw [BitVec.toNat_add, Nat.mod_add_mod, show (1 : Word w).toNat = 1 % 2 ^ w from BitVec.toNat_ofNat ..]
        rw [Nat.add_assoc, Nat.add_comm (1 % 2 ^ w), ← Nat.add_assoc, Nat.add_mod_mod, Nat.add_assoc]
      rwa [he] at h2

end Sys2Proof.Machine
end

