-- ==== Sys2Proof/Laws/Step.lean ====
section
/-! SUPPORT. What an instruction can do and what a step can do, said once. -/

namespace Sys2Proof.Machine

open Sys2Proof

/-- Every way an instruction can take `s` to a next state. The two first and the halts stand for many instructions: of
these the reader learns only whether the instruction is one that halts and that it is no port instruction. -/
inductive Does (s : State) : Instr → State → Prop
  | writesReg (i : Instr) (d : Reg) {w : Nat} (v : Word w) (hh : ¬i.haltsWhenRun)
      (hi : ∀ d p, i ≠ .inp d p) (ho : ∀ p src, i ≠ .out p src) : Does s i (s.setReg d v)
  | nothing (i : Instr) (hh : ¬i.haltsWhenRun) (hi : ∀ d p, i ≠ .inp d p) (ho : ∀ p src, i ≠ .out p src) : Does s i s
  | halts (i : Instr) (hh : i.haltsWhenRun) : Does s i s.halt
  | stores (a src : Reg) : Does s (.st a src) (s.memWrite (s.reg a) 1 (s.reg src))
  | calls (r : Reg) : Does s (.call r) ((s.push s.pc).setPc (s.reg r))
  | returns : Does s .ret (s.popState.setPc s.popValue)
  | readsPort (d p : Reg) (t : State) (h : s.portRead (portIndex (s.reg p)) = .returned t) :
      Does s (.inp d p) (t.setReg d (t.port (portIndex (s.reg p))))
  | readBlocks (d p : Reg) (t : State) (h : s.portRead (portIndex (s.reg p)) = .blocked t) : Does s (.inp d p) t
  | writesPort (p src : Reg) (t : State) (h : s.portWrite (portIndex (s.reg p)) (s.reg src) = .returned t) :
      Does s (.out p src) t
  | writeBlocks (p src : Reg) (t : State) (h : s.portWrite (portIndex (s.reg p)) (s.reg src) = .blocked t) :
      Does s (.out p src) t

/-- A jump either writes pc or does nothing. -/
theorem Does.jump {s : State} {i : Instr} (c : Bool) {w : Nat} (target : Word w) (hh : ¬i.haltsWhenRun)
    (hi : ∀ d p, i ≠ .inp d p) (ho : ∀ p src, i ≠ .out p src) : Does s i (s.jumpIf c target) := by
  cases c
  · exact .nothing i hh hi ho
  · exact .writesReg i pcReg target hh hi ho

/-- The hex digits of `:#` have a value exactly when both bytes are digits (42_load_immediate.md R172). -/
theorem hexOperand_none {h l : Byte} : hexOperand h l = none ↔ hexval h = none ∨ hexval l = none := by
  unfold hexOperand
  cases hexval h <;> cases hexval l <;> simp

/-- What an instruction that answers a next state has done. -/
theorem exec_does {i : Instr} {s t : State} (h : exec i s = .next t) : Does s i t := by
  cases i with
  | st a src => cases h; exact .stores a src
  | call r => cases h; exact .calls r
  | ret => cases h; exact .returns
  | ldx d hi lo =>
    simp only [exec, execLdx] at h
    split at h
    · next v hv =>
      cases h
      refine .writesReg _ _ _ (fun hh => ?_) (by simp) (by simp)
      rw [hexOperand_none.mpr hh] at hv
      cases hv
    · next hv => cases h; exact .halts _ (hexOperand_none.mp hv)
  | inp d p =>
    simp only [exec, execIn] at h
    split at h
    · next u hu => cases h; exact .readsPort d p u hu
    · next u hu => cases h; exact .readBlocks d p _ hu
  | out p src =>
    simp only [exec, execOut] at h
    split at h
    · next u hu => cases h; exact .writesPort p src _ hu
    · next u hu => cases h; exact .writeBlocks p src _ hu
  | jeq a b tgt => cases h; exact .jump _ _ (by simp [Instr.haltsWhenRun]) (by simp) (by simp)
  | jne a b tgt => cases h; exact .jump _ _ (by simp [Instr.haltsWhenRun]) (by simp) (by simp)
  | jlt a b tgt => cases h; exact .jump _ _ (by simp [Instr.haltsWhenRun]) (by simp) (by simp)
  | jgt a b tgt => cases h; exact .jump _ _ (by simp [Instr.haltsWhenRun]) (by simp) (by simp)
  | halt => cases h; exact .halts _ trivial
  | haltUnknown o => cases h; exact .halts _ trivial
  | haltBadMode m => cases h; exact .halts _ trivial
  | haltBadCmp c => cases h; exact .halts _ trivial
  | skipSpace => cases h; exact .nothing _ (by simp [Instr.haltsWhenRun]) (by simp) (by simp)
  | skipTab => cases h; exact .nothing _ (by simp [Instr.haltsWhenRun]) (by simp) (by simp)
  | skipNewline => cases h; exact .nothing _ (by simp [Instr.haltsWhenRun]) (by simp) (by simp)
  | skipVerticalTab => cases h; exact .nothing _ (by simp [Instr.haltsWhenRun]) (by simp) (by simp)
  | skipFormFeed => cases h; exact .nothing _ (by simp [Instr.haltsWhenRun]) (by simp) (by simp)
  | skipCarriageReturn => cases h; exact .nothing _ (by simp [Instr.haltsWhenRun]) (by simp) (by simp)
  | add d a b => cases h; exact .writesReg _ d _ (by simp [Instr.haltsWhenRun]) (by simp) (by simp)
  | sub d a b => cases h; exact .writesReg _ d _ (by simp [Instr.haltsWhenRun]) (by simp) (by simp)
  | mul d a b => cases h; exact .writesReg _ d _ (by simp [Instr.haltsWhenRun]) (by simp) (by simp)
  | div d a b => cases h; exact .writesReg _ d _ (by simp [Instr.haltsWhenRun]) (by simp) (by simp)
  | mod d a b => cases h; exact .writesReg _ d _ (by simp [Instr.haltsWhenRun]) (by simp) (by simp)
  | and d a b => cases h; exact .writesReg _ d _ (by simp [Instr.haltsWhenRun]) (by simp) (by simp)
  | or d a b => cases h; exact .writesReg _ d _ (by simp [Instr.haltsWhenRun]) (by simp) (by simp)
  | xor d a b => cases h; exact .writesReg _ d _ (by simp [Instr.haltsWhenRun]) (by simp) (by simp)
  | shl d a b => cases h; exact .writesReg _ d _ (by simp [Instr.haltsWhenRun]) (by simp) (by simp)
  | shr d a b => cases h; exact .writesReg _ d _ (by simp [Instr.haltsWhenRun]) (by simp) (by simp)
  | not d src => cases h; exact .writesReg _ d _ (by simp [Instr.haltsWhenRun]) (by simp) (by simp)
  | ldb d v => cases h; exact .writesReg _ d _ (by simp [Instr.haltsWhenRun]) (by simp) (by simp)
  | mov d src => cases h; exact .writesReg _ d _ (by simp [Instr.haltsWhenRun]) (by simp) (by simp)
  | ld d a => cases h; exact .writesReg _ d _ (by simp [Instr.haltsWhenRun]) (by simp) (by simp)
  | jmp r => cases h; exact .writesReg _ pcReg _ (by simp [Instr.haltsWhenRun]) (by simp) (by simp)

/-- What a step that answers a next state has done: nothing, in a stopped core; or the decoded instruction, from the
state with pc past its bytes; or a halt at a fetch out of range. -/
theorem step_cases {s t : State} (h : step s = .next t) :
    (s.stopped = true ∧ t = s) ∨
    (s.stopped = false ∧ ∃ i rest, decode s.cfg.hasMod s.fetchWindow = .ok (i, rest) ∧
      exec i (s.advance (s.fetchWindow.length - rest.length)) = .next t) ∨
    (s.stopped = false ∧ decode s.cfg.hasMod s.fetchWindow = .error .truncated ∧
      t = (s.advance s.fetchWindow.length).fetchOutOfRange) := by
  unfold step at h
  cases hs : s.stopped
  · rw [hs, if_neg (by decide)] at h
    unfold State.fetchInstr at h
    rcases hd : decode s.cfg.hasMod s.fetchWindow with e | ⟨i, rest⟩
    · cases e
      rw [hd] at h
      cases h
      exact .inr (.inr ⟨rfl, rfl, rfl⟩)
    · rw [hd] at h
      exact .inr (.inl ⟨rfl, i, rest, rfl, h⟩)
  · rw [hs, if_pos rfl] at h
    cases h
    exact .inl ⟨rfl, rfl⟩

end Sys2Proof.Machine
end

