-- ==== Sys2Proof/Laws/Fetch.lean ====
section
/-! SUPPORT. The window a step decodes and the listing's one byte at a time, both seen from the states `advance k`. -/

namespace Sys2Proof

/-- Bytes after an instruction's last do not change what it decodes to. -/
theorem decode_append {hasMod : Bool} {bs rest : List Byte} {i : Instr} (h : decode hasMod bs = .ok (i, rest))
    (more : List Byte) : decode hasMod (bs ++ more) = .ok (i, rest ++ more) := by
  have h1 : ∀ {f : Reg → Instr} {bs : List Byte}, takeReg1 f bs = .ok (i, rest) →
      takeReg1 f (bs ++ more) = .ok (i, rest ++ more) := by
    intro f bs h
    obtain ⟨r, rfl, rfl⟩ := takeReg1_ok.mp h
    rfl
  have h2 : ∀ {f : Reg → Reg → Instr} {bs : List Byte}, takeReg2 f bs = .ok (i, rest) →
      takeReg2 f (bs ++ more) = .ok (i, rest ++ more) := by
    intro f bs h
    obtain ⟨q, r, rfl, rfl⟩ := takeReg2_ok.mp h
    rfl
  have h3 : ∀ {f : Reg → Reg → Reg → Instr} {bs : List Byte}, takeReg3 f bs = .ok (i, rest) →
      takeReg3 f (bs ++ more) = .ok (i, rest ++ more) := by
    intro f bs h
    obtain ⟨p, q, r, rfl, rfl⟩ := takeReg3_ok.mp h
    rfl
  have h4 : ∀ {f : Reg → Byte → Instr} {bs : List Byte}, takeRegByte f bs = .ok (i, rest) →
      takeRegByte f (bs ++ more) = .ok (i, rest ++ more) := by
    intro f bs h
    obtain ⟨d, v, rfl, rfl⟩ := takeRegByte_ok.mp h
    rfl
  have h5 : ∀ {f : Reg → Byte → Byte → Instr} {bs : List Byte}, takeRegByteByte f bs = .ok (i, rest) →
      takeRegByteByte f (bs ++ more) = .ok (i, rest ++ more) := by
    intro f bs h
    obtain ⟨d, x, y, rfl, rfl⟩ := takeRegByteByte_ok.mp h
    rfl
  have h0 : ∀ {j : Instr} {bs : List Byte}, (Except.ok (j, bs) : Decoded) = .ok (i, rest) →
      (Except.ok (j, bs ++ more) : Decoded) = .ok (i, rest ++ more) := by
    intro j bs h
    cases h
    rfl
  cases bs with
  | nil => cases h
  | cons op bs =>
    rw [List.cons_append]
    rcases firstByte_cases hasMod op with rfl | rfl | rfl | rfl | rfl | rfl | rfl | rfl | rfl | rfl | rfl | rfl | rfl |
      rfl | rfl | rfl | rfl | rfl | rfl | rfl | rfl | rfl | rfl | rfl | rfl | rfl | ⟨rfl, rfl⟩ | hu
    case inr.inr.inr.inr.inr.inr.inr.inr.inr.inr.inr.inr.inr.inr.inr.inl =>
      rw [decode_colon] at h ⊢
      cases bs with
      | nil => cases h
      | cons m bs =>
        rcases colonByte_cases m with rfl | rfl | rfl | hb
        · exact h4 h
        · exact h5 h
        · exact h2 h
        · rw [decodeColon_bad _ hb] at h
          rw [List.cons_append, decodeColon_bad _ hb]
          exact h0 h
    case inr.inr.inr.inr.inr.inr.inr.inr.inr.inr.inr.inr.inr.inr.inr.inr.inr.inr.inr.inl =>
      rw [decode_question] at h ⊢
      cases bs with
      | nil => cases h
      | cons c bs =>
        rcases questionByte_cases c with rfl | rfl | rfl | rfl | hb
        · exact h3 h
        · exact h3 h
        · exact h3 h
        · exact h3 h
        · rw [decodeQuestion_bad _ hb] at h
          rw [List.cons_append, decodeQuestion_bad _ hb]
          exact h0 h
    all_goals
      first
      | exact h0 h
      | exact h1 h
      | exact h2 h
      | exact h3 h
      | (rw [decode_unknown hu] at h ⊢; exact h0 h)

namespace Machine

/-! ## pc, one fetch after another -/

@[simp] theorem State.setReg_setReg (s : State) (r : Reg) {w w' : Nat} (v : Word w) (v' : Word w') :
    (s.setReg r v).setReg r v' = s.setReg r v' := by
  simp [State.setReg]

/-- pc after k fetches. -/
@[simp] theorem State.advance_pc (s : State) (k : Nat) :
    (s.advance k).pc = s.pc + BitVec.ofNat s.cfg.wordBits k := by
  simp [State.advance, State.setPc, State.pc]

/-- No fetch leaves the state as it was. -/
@[simp] theorem State.advance_zero (s : State) : s.advance 0 = s := by
  have h : s.regs.set pcReg.val s.regs[pcReg.val] = s.regs := by simp
  unfold State.advance State.setPc State.setReg State.pc State.reg
  cases s
  simp at h ⊢

theorem word_add_succ {w : Nat} (p : Word w) (k : Nat) :
    p + BitVec.ofNat w k + 1 = p + BitVec.ofNat w (k + 1) := by
  rw [BitVec.add_assoc]
  simp [BitVec.ofNat_add]

/-- One more fetch after k. -/
theorem State.advance_succ (s : State) (k : Nat) :
    (s.advance k).setPc ((s.advance k).pc + 1) = s.advance (k + 1) := by
  rw [State.advance_pc]
  have h := congrArg (fun v : Word s.cfg.wordBits => s.setReg pcReg v) (word_add_succ s.pc k)
  exact (s.setReg_setReg pcReg (s.pc + BitVec.ofNat s.cfg.wordBits k) _).trans h

/-! ## The window and the listing -/

/-- The fetch that follows k fetches is out of range (40_fetch_decode.md R122). -/
abbrev State.beyond (s : State) (k : Nat) : Prop := s.cfg.memSize ≤ (s.advance k).pc.toNat

/-- The byte that follows k fetched bytes. -/
def State.fetched (s : State) (k : Nat) : Byte := s.mem.read (s.advance k).pc.toNat

/-- A fetch of the listing, after k of them. -/
theorem State.advance_thenFetch (s : State) (k : Nat) (f : Byte → State → State) :
    (s.advance k).thenFetch f =
      if s.beyond k then (s.advance k).fetchOutOfRange else f (s.fetched k) (s.advance (k + 1)) := by
  unfold State.thenFetch
  rw [State.advance_succ]
  rfl

theorem State.fetchBytes_advance (s : State) (k n : Nat) :
    fetchBytes s.cfg.memSize s.mem (s.advance k).pc (n + 1) =
      if s.beyond k then []
      else s.fetched k :: fetchBytes s.cfg.memSize s.mem (s.advance (k + 1)).pc n := by
  have h : ∀ (w : Nat) (p q : Word w), p + 1 = q → fetchBytes s.cfg.memSize s.mem p (n + 1) =
      if s.cfg.memSize ≤ p.toNat then []
      else s.mem.read p.toNat :: fetchBytes s.cfg.memSize s.mem q n := by
    rintro w p q rfl
    rfl
  have e : (s.advance k).pc + 1 = (s.advance (k + 1)).pc := by
    rw [State.advance_pc, State.advance_pc]
    exact word_add_succ s.pc k
  exact h _ _ _ e

/-- The window, byte by byte. -/
theorem State.fetchWindow_eq (s : State) :
    s.fetchWindow =
      if s.beyond 0 then [] else s.fetched 0 ::
        if s.beyond 1 then [] else s.fetched 1 ::
          if s.beyond 2 then [] else s.fetched 2 ::
            if s.beyond 3 then [] else s.fetched 3 ::
              if s.beyond 4 then [] else [s.fetched 4] := by
  have h : s.fetchWindow = fetchBytes s.cfg.memSize s.mem (s.advance 0).pc 5 := by
    rw [State.advance_zero]
    rfl
  rw [h, State.fetchBytes_advance, State.fetchBytes_advance, State.fetchBytes_advance, State.fetchBytes_advance,
    State.fetchBytes_advance]
  rfl

/-- Where the bytes `bs`, five at most, stand at pc, the window begins with them. -/
theorem fetchBytes_prefix {size : Nat} {mem : Memory} {w : Nat} (pc : Word w) (n : Nat) (bs : List Byte)
    (hn : bs.length ≤ n)
    (h : ∀ k b, bs[k]? = some b → (pc.toNat + k) % 2 ^ w < size ∧ mem.read ((pc.toNat + k) % 2 ^ w) = b) :
    ∃ more, fetchBytes size mem pc n = bs ++ more := by
  induction bs generalizing pc n with
  | nil => exact ⟨_, rfl⟩
  | cons b bs ih =>
    cases n with
    | zero => simp at hn
    | succ n =>
      have h0 := h 0 b rfl
      rw [Nat.add_zero, Nat.mod_eq_of_lt pc.isLt] at h0
      obtain ⟨more, hm⟩ := ih (pc + 1) n (by simpa using hn) (fun k b' hk => by
        have hk' := h (k + 1) b' (by simpa using hk)
        have he : ((pc + 1).toNat + k) % 2 ^ w = (pc.toNat + (k + 1)) % 2 ^ w := by
          rw [BitVec.toNat_add, Nat.mod_add_mod, show (1 : Word w).toNat = 1 % 2 ^ w from BitVec.toNat_ofNat ..]
          rw [Nat.add_assoc, Nat.add_comm (1 % 2 ^ w), ← Nat.add_assoc, Nat.add_mod_mod, Nat.add_assoc]
        rwa [he])
      refine ⟨more, ?_⟩
      rw [fetchBytes, if_neg (by omega), hm, h0.2, List.cons_append]

/-- A running core's step, by what its window decodes to. -/
theorem step_of_running {s : State} (hs : s.stopped = false) :
    step s =
      match decode s.cfg.hasMod s.fetchWindow with
      | .ok (i, rest) => exec i (s.advance (s.fetchWindow.length - rest.length))
      | .error _ => .next (s.advance s.fetchWindow.length).fetchOutOfRange := by
  unfold step State.fetchInstr
  rw [hs]
  rcases decode s.cfg.hasMod s.fetchWindow with e | ⟨i, rest⟩
  · cases e
    rfl
  · rfl

/-- All that a one-byte store does to the store (43_memory_port.md R182). -/
theorem State.memWrite_one (s : State) {w w' : Nat} (addr : Word w) (v : Word w') (a : Nat) :
    (s.memWrite addr 1 v).mem.read a = if a = s.dataAddress addr then byteOf v.toNat 0 else s.mem.read a := by
  rw [← extractByte_eq_byteOf v 0]
  exact Memory.read_write s.mem (s.dataAddress addr) a (v.extractLsb' (8 * 0) 8)

end Machine

end Sys2Proof
end

