-- ==== Sys2Proof/Laws/PerInstr.lean ====
section
/-! SUPPORT. Statements about every instruction as syntax, one lemma for each constructor. -/

namespace Sys2Proof.Laws.EncodeLength

open Sys2Proof

/-- An instruction's encoding has its length (30_encoding.md R94, R104), at least 1 and at most 5. -/
def Statement (i : Instr) : Prop := (encode i).length = i.length ∧ 1 ≤ i.length ∧ i.length ≤ maxInstrLength

theorem add (d a b : Reg) : Statement (.add d a b) := by simp [Statement, encode, Instr.length, maxInstrLength]
theorem sub (d a b : Reg) : Statement (.sub d a b) := by simp [Statement, encode, Instr.length, maxInstrLength]
theorem mul (d a b : Reg) : Statement (.mul d a b) := by simp [Statement, encode, Instr.length, maxInstrLength]
theorem div (d a b : Reg) : Statement (.div d a b) := by simp [Statement, encode, Instr.length, maxInstrLength]
theorem mod (d a b : Reg) : Statement (.mod d a b) := by simp [Statement, encode, Instr.length, maxInstrLength]
theorem and (d a b : Reg) : Statement (.and d a b) := by simp [Statement, encode, Instr.length, maxInstrLength]
theorem or (d a b : Reg) : Statement (.or d a b) := by simp [Statement, encode, Instr.length, maxInstrLength]
theorem xor (d a b : Reg) : Statement (.xor d a b) := by simp [Statement, encode, Instr.length, maxInstrLength]
theorem shl (d a b : Reg) : Statement (.shl d a b) := by simp [Statement, encode, Instr.length, maxInstrLength]
theorem shr (d a b : Reg) : Statement (.shr d a b) := by simp [Statement, encode, Instr.length, maxInstrLength]
theorem not (d src : Reg) : Statement (.not d src) := by simp [Statement, encode, Instr.length, maxInstrLength]
theorem ldb (d : Reg) (v : Byte) : Statement (.ldb d v) := by simp [Statement, encode, Instr.length, maxInstrLength]
theorem ldx (d : Reg) (h l : Byte) : Statement (.ldx d h l) := by simp [Statement, encode, Instr.length, maxInstrLength]
theorem mov (d src : Reg) : Statement (.mov d src) := by simp [Statement, encode, Instr.length, maxInstrLength]
theorem haltBadMode (m : Byte) : Statement (.haltBadMode m) := by simp [Statement, encode, Instr.length, maxInstrLength]
theorem ld (d a : Reg) : Statement (.ld d a) := by simp [Statement, encode, Instr.length, maxInstrLength]
theorem st (a src : Reg) : Statement (.st a src) := by simp [Statement, encode, Instr.length, maxInstrLength]
theorem inp (d p : Reg) : Statement (.inp d p) := by simp [Statement, encode, Instr.length, maxInstrLength]
theorem out (p src : Reg) : Statement (.out p src) := by simp [Statement, encode, Instr.length, maxInstrLength]
theorem jmp (r : Reg) : Statement (.jmp r) := by simp [Statement, encode, Instr.length, maxInstrLength]
theorem jeq (a b t : Reg) : Statement (.jeq a b t) := by simp [Statement, encode, Instr.length, maxInstrLength]
theorem jne (a b t : Reg) : Statement (.jne a b t) := by simp [Statement, encode, Instr.length, maxInstrLength]
theorem jlt (a b t : Reg) : Statement (.jlt a b t) := by simp [Statement, encode, Instr.length, maxInstrLength]
theorem jgt (a b t : Reg) : Statement (.jgt a b t) := by simp [Statement, encode, Instr.length, maxInstrLength]
theorem haltBadCmp (c : Byte) : Statement (.haltBadCmp c) := by simp [Statement, encode, Instr.length, maxInstrLength]
theorem call (r : Reg) : Statement (.call r) := by simp [Statement, encode, Instr.length, maxInstrLength]
theorem ret : Statement .ret := by simp [Statement, encode, Instr.length, maxInstrLength]
theorem halt : Statement .halt := by simp [Statement, encode, Instr.length, maxInstrLength]
theorem skipSpace : Statement .skipSpace := by simp [Statement, encode, Instr.length, maxInstrLength]
theorem skipTab : Statement .skipTab := by simp [Statement, encode, Instr.length, maxInstrLength]
theorem skipNewline : Statement .skipNewline := by simp [Statement, encode, Instr.length, maxInstrLength]
theorem skipVerticalTab : Statement .skipVerticalTab := by simp [Statement, encode, Instr.length, maxInstrLength]
theorem skipFormFeed : Statement .skipFormFeed := by simp [Statement, encode, Instr.length, maxInstrLength]
theorem skipCarriageReturn : Statement .skipCarriageReturn := by simp [Statement, encode, Instr.length, maxInstrLength]
theorem haltUnknown (o : Byte) : Statement (.haltUnknown o) := by simp [Statement, encode, Instr.length, maxInstrLength]

end Sys2Proof.Laws.EncodeLength
end

