-- ==== Sys2Proof/Tests/Slice0.lean ====
section
/-! SUPPORT. Tests of the model's own: ill-formed terms refused, words written out from the spec's encodings, one step at a
time of the vectors of 95_test_vectors.md, and a witness for each statement that has hypotheses. -/

namespace Sys2Proof.Tests

open Sys2Proof Sys2Proof.Machine

/-! ## Well-formedness: each check refuses an ill-formed term -/

/-- R127: `+` is in the case table. -/
theorem test_wf_refuses_known_opcode : (Instr.haltUnknown 0x2B).wf true = false := by decide

/-- R148: `%` is unknown only where HAS_MOD is false. -/
theorem test_wf_mod_needs_hasMod :
    (Instr.mod 1 2 3).wf false = false ∧ (Instr.haltUnknown 0x25).wf true = false ∧
      (Instr.mod 1 2 3).wf true = true ∧ (Instr.haltUnknown 0x25).wf false = true := by decide

/-- R174: the three selectors of `:`. -/
theorem test_wf_refuses_known_mode :
    (Instr.haltBadMode 0x27).wf true = false ∧ (Instr.haltBadMode 0x23).wf true = false ∧
      (Instr.haltBadMode 0x3D).wf true = false := by decide

/-- R208: the four selectors of `?`. -/
theorem test_wf_refuses_known_comparison :
    (Instr.haltBadCmp 0x3D).wf true = false ∧ (Instr.haltBadCmp 0x21).wf true = false ∧
      (Instr.haltBadCmp 0x3C).wf true = false ∧ (Instr.haltBadCmp 0x3E).wf true = false := by decide

/-! ## Decoding: a word of every constructor, written out from opcode_table.json's encodings and 30_encoding.md -/

/-- Format F3, the ten operations: 00101011 01100001 11100010 01100011 and so on, one ignored bit set (R94, R99). -/
theorem test_decode_arithmetic :
    decode true [0b00101011, 0b01100001, 0b11100010, 0b01100011] = .ok (.add 97 98 99, []) ∧
    decode true [0b00101101, 0b01100001, 0b01100010, 0b11100011] = .ok (.sub 97 98 99, []) ∧
    decode true [0b00101010, 0b11100001, 0b01100010, 0b01100011] = .ok (.mul 97 98 99, []) ∧
    decode true [0b00101111, 0b01100001, 0b01100010, 0b01100011] = .ok (.div 97 98 99, []) ∧
    decode true [0b00100101, 0b01100001, 0b01100010, 0b01100011] = .ok (.mod 97 98 99, []) := by
  refine ⟨?_, ?_, ?_, ?_, ?_⟩ <;> rfl

theorem test_decode_bitwise_and_shift :
    decode true [0b00100110, 0b00000000, 0b00000001, 0b01111111] = .ok (.and 0 1 127, []) ∧
    decode true [0b01111100, 0b00000000, 0b00000001, 0b01111111] = .ok (.or 0 1 127, []) ∧
    decode true [0b01011110, 0b00000000, 0b00000001, 0b01111111] = .ok (.xor 0 1 127, []) ∧
    decode true [0b00111100, 0b00000000, 0b00000001, 0b11111111] = .ok (.shl 0 1 127, []) ∧
    decode true [0b00111110, 0b00000000, 0b00000001, 0b11111111] = .ok (.shr 0 1 127, []) ∧
    decode true [0b01111110, 0b01100100, 0b01110011] = .ok (.not 100 115, []) := by
  refine ⟨?_, ?_, ?_, ?_, ?_, ?_⟩ <;> rfl

/-- Formats FL, FX, FM and the fall-back of `:` (R100). -/
theorem test_decode_load_immediate :
    decode true [0b00111010, 0b00100111, 0b11100001, 0b11111111] = .ok (.ldb 97 255, []) ∧
    decode true [0b00111010, 0b00100011, 0b01100001, 0b00110010, 0b01000001] = .ok (.ldx 97 0x32 0x41, []) ∧
    decode true [0b00111010, 0b00111101, 0b01100100, 0b01110011] = .ok (.mov 100 115, []) ∧
    decode true [0b00111010, 0b01111000, 0b01100001] = .ok (.haltBadMode 0x78, [0x61]) := by
  refine ⟨?_, ?_, ?_, ?_⟩ <;> rfl

/-- Format F2 of the memory and port pairs: `@da`, `!as`, `{dp`, `}ps`. -/
theorem test_decode_memory_port :
    decode true [0b01000000, 0b01100100, 0b01100001] = .ok (.ld 100 97, []) ∧
    decode true [0b00100001, 0b01100001, 0b01110011] = .ok (.st 97 115, []) ∧
    decode true [0b01111011, 0b01100100, 0b01110000] = .ok (.inp 100 112, []) ∧
    decode true [0b01111101, 0b01110000, 0b01110011] = .ok (.out 112 115, []) := by
  refine ⟨?_, ?_, ?_, ?_⟩ <;> rfl

/-- Formats F1, FC, F0 of control flow, and the fall-back of `?` (R101). -/
theorem test_decode_control :
    decode true [0b00101110, 0b01110100] = .ok (.jmp 116, []) ∧
    decode true [0b00111111, 0b00111101, 0b01100001, 0b01100010, 0b01110100] = .ok (.jeq 97 98 116, []) ∧
    decode true [0b00111111, 0b00100001, 0b01100001, 0b01100010, 0b01110100] = .ok (.jne 97 98 116, []) ∧
    decode true [0b00111111, 0b00111100, 0b01100001, 0b01100010, 0b01110100] = .ok (.jlt 97 98 116, []) ∧
    decode true [0b00111111, 0b00111110, 0b01100001, 0b01100010, 0b01110100] = .ok (.jgt 97 98 116, []) ∧
    decode true [0b00111111, 0b00101011, 0b01100001] = .ok (.haltBadCmp 0x2B, [0x61]) ∧
    decode true [0b00111011, 0b01100110] = .ok (.call 102, []) ∧
    decode true [0b00101100, 0b01100110] = .ok (.ret, [0x66]) := by
  refine ⟨?_, ?_, ?_, ?_, ?_, ?_, ?_, ?_⟩ <;> rfl

/-- Format F0 of halt, the six whitespace bytes, and unknown first bytes. -/
theorem test_decode_halt_and_skip :
    decode true [0b00000000] = .ok (.halt, []) ∧
    decode true [0b00100000] = .ok (.skipSpace, []) ∧
    decode true [0b00001001] = .ok (.skipTab, []) ∧
    decode true [0b00001010] = .ok (.skipNewline, []) ∧
    decode true [0b00001011] = .ok (.skipVerticalTab, []) ∧
    decode true [0b00001100] = .ok (.skipFormFeed, []) ∧
    decode true [0b00001101] = .ok (.skipCarriageReturn, []) ∧
    decode true [0b01000001] = .ok (.haltUnknown 0x41, []) ∧
    decode true [0b10101011] = .ok (.haltUnknown 0xAB, []) ∧
    decode false [0b00100101] = .ok (.haltUnknown 0x25, []) := by
  refine ⟨?_, ?_, ?_, ?_, ?_, ?_, ?_, ?_, ?_, ?_⟩ <;> rfl

/-- Bytes that end before their instruction are refused by name. -/
theorem test_decode_refuses_truncated :
    decode true [] = .error .truncated ∧ decode true [0x2B, 0x61, 0x62] = .error .truncated ∧
      decode true [0x3A] = .error .truncated ∧ decode true [0x3F, 0x3D, 0x61, 0x62] = .error .truncated := by
  refine ⟨?_, ?_, ?_, ?_⟩ <;> rfl

/-- Table words of a one-byte key and of a two-byte key: 0x2B, and 0x3A27 with `:` in bits 15 to 8 (R102). -/
theorem test_decodeTableWord :
    decodeTableWord 8 0x2B = some (.add 0 0 0) ∧ decodeTableWord 16 0x3A27 = some (.ldb 0 0) ∧
      decodeTableWord 16 0x3F3E = some (.jgt 0 0 0) ∧ decodeTableWord 16 0x3A00 = some (.haltBadMode 0) ∧
      decodeTableWord 8 0x0D = some .skipCarriageReturn := by
  refine ⟨?_, ?_, ?_, ?_, ?_⟩ <;> rfl

/-! ## One step at a time: vectors of 95_test_vectors.md -/

/-- A core after `init` with bytes loaded at `a`, pc at `a` and registers set by the host. -/
def startAt (a : Nat) (bytes : List Byte) (regs : List (Reg × Nat)) : State :=
  regs.foldl (fun s p => s.hostAct (.writeReg p.1 p.2))
    ({ State.reset with mem := State.reset.mem.load State.reset.cfg.memSize a bytes }.hostAct (.writeReg pcReg a))

/-- The same core with both hooks installed and the host's replies. -/
def withHooks (s : State) (replies : List HostReply) : State where
  cfg := { s.cfg with readHook := true, writeHook := true }
  regs := s.regs
  mem := s.mem
  ports := s.ports
  halted := s.halted
  blockedIn := s.blockedIn
  signals := s.signals
  hostScript := replies

/-- The state after one step. -/
def after (s : State) : State :=
  match step s with
  | .next t => t
  | .fault _ => s
  | .refused _ => s

/-- V1, R144. -/
theorem test_add_wraps :
    let t := after (startAt 0 [0x2B, 0x63, 0x61, 0x62] [(0x61, 0xFFFFFFFF), (0x62, 0x1)])
    t.x pcReg = 0x4 ∧ t.halted = false ∧ t.x 0x63 = 0x0 := by
  decide

/-- V3, R144. -/
theorem test_add_reads_pc_after_itself :
    let t := after (startAt 0x20 [0x2B, 0x63, 0x2E, 0x7A] [(0x7A, 0x0)])
    t.x pcReg = 0x24 ∧ t.halted = false ∧ t.x 0x63 = 0x24 := by
  decide

/-- V7, R145. -/
theorem test_sub_borrow_wraps :
    let t := after (startAt 0 [0x2D, 0x63, 0x61, 0x62] [(0x61, 0x3), (0x62, 0x5)])
    t.x pcReg = 0x4 ∧ t.halted = false ∧ t.x 0x63 = 0xFFFFFFFE := by
  decide

/-- V8, R145. -/
theorem test_sub_source_is_destination :
    let t := after (startAt 0 [0x2D, 0x61, 0x61, 0x61] [(0x61, 0x7)])
    t.x pcReg = 0x4 ∧ t.halted = false ∧ t.x 0x61 = 0x0 := by
  decide

/-- V9, R146. -/
theorem test_mul_low_bits :
    let t := after (startAt 0 [0x2A, 0x63, 0x61, 0x62] [(0x61, 0xFFFFFFFF), (0x62, 0xFFFFFFFF)])
    t.x pcReg = 0x4 ∧ t.halted = false ∧ t.x 0x63 = 0x1 := by
  decide

/-- V10, R146. -/
theorem test_mul_overflow_is_zero :
    let t := after (startAt 0 [0x2A, 0x63, 0x61, 0x62] [(0x61, 0x10000), (0x62, 0x10000)])
    t.x pcReg = 0x4 ∧ t.halted = false ∧ t.x 0x63 = 0x0 := by
  decide

/-- V12, R147. -/
theorem test_div_by_zero :
    let t := after (startAt 0 [0x2F, 0x63, 0x61, 0x62] [(0x61, 0x7), (0x62, 0x0), (0x63, 0x55)])
    t.x pcReg = 0x4 ∧ t.halted = false ∧ t.x 0x63 = 0x0 := by
  decide

/-- V13, R147. -/
theorem test_div_is_unsigned :
    let t := after (startAt 0 [0x2F, 0x63, 0x61, 0x62] [(0x61, 0xFFFFFFFF), (0x62, 0x2)])
    t.x pcReg = 0x4 ∧ t.halted = false ∧ t.x 0x63 = 0x7FFFFFFF := by
  decide

/-- V16, R148. -/
theorem test_mod_by_zero :
    let t := after (startAt 0 [0x25, 0x63, 0x61, 0x62] [(0x61, 0x7), (0x62, 0x0), (0x63, 0x55)])
    t.x pcReg = 0x4 ∧ t.halted = false ∧ t.x 0x63 = 0x0 := by
  decide

/-- V17, R148. -/
theorem test_mod_remainder :
    let t := after (startAt 0 [0x25, 0x63, 0x61, 0x62] [(0x61, 0xFFFFFFFF), (0x62, 0x10)])
    t.x pcReg = 0x4 ∧ t.halted = false ∧ t.x 0x63 = 0xF := by
  decide

/-- V19, R149. -/
theorem test_and :
    let t := after (startAt 0 [0x26, 0x63, 0x61, 0x62] [(0x61, 0xF0F0), (0x62, 0xFF00)])
    t.x pcReg = 0x4 ∧ t.halted = false ∧ t.x 0x63 = 0xF000 := by
  decide

/-- V20, R150. -/
theorem test_or :
    let t := after (startAt 0 [0x7C, 0x63, 0x61, 0x62] [(0x61, 0xF0F0), (0x62, 0xFF00)])
    t.x pcReg = 0x4 ∧ t.halted = false ∧ t.x 0x63 = 0xFFF0 := by
  decide

/-- V21, R151. -/
theorem test_xor :
    let t := after (startAt 0 [0x5E, 0x63, 0x61, 0x62] [(0x61, 0xF0F0), (0x62, 0xFF00)])
    t.x pcReg = 0x4 ∧ t.halted = false ∧ t.x 0x63 = 0xFF0 := by
  decide

/-- V22, R151. -/
theorem test_xor_clears :
    let t := after (startAt 0 [0x5E, 0x61, 0x61, 0x61] [(0x61, 0x1234)])
    t.x pcReg = 0x4 ∧ t.halted = false ∧ t.x 0x61 = 0x0 := by
  decide

/-- V23, R152. -/
theorem test_shl_top_bit :
    let t := after (startAt 0 [0x3C, 0x63, 0x61, 0x62] [(0x61, 0x1), (0x62, 0x1F)])
    t.x pcReg = 0x4 ∧ t.halted = false ∧ t.x 0x63 = 0x80000000 := by
  decide

/-- V26, R152. -/
theorem test_shl_amount_is_not_masked :
    let t := after (startAt 0 [0x3C, 0x63, 0x61, 0x62] [(0x61, 0x1), (0x62, 0xFFFFFFFF)])
    t.x pcReg = 0x4 ∧ t.halted = false ∧ t.x 0x63 = 0x0 := by
  decide

/-- V28, R153. -/
theorem test_shr_is_logical :
    let t := after (startAt 0 [0x3E, 0x63, 0x61, 0x62] [(0x61, 0x80000000), (0x62, 0x1F)])
    t.x pcReg = 0x4 ∧ t.halted = false ∧ t.x 0x63 = 0x1 := by
  decide

/-- V29, R153. -/
theorem test_shr_by_the_width :
    let t := after (startAt 0 [0x3E, 0x63, 0x61, 0x62] [(0x61, 0x80000000), (0x62, 0x20)])
    t.x pcReg = 0x4 ∧ t.halted = false ∧ t.x 0x63 = 0x0 := by
  decide

/-- V32, R154. -/
theorem test_not_in_place :
    let t := after (startAt 0 [0x7E, 0x61, 0x61] [(0x61, 0xFFFF)])
    t.x pcReg = 0x3 ∧ t.halted = false ∧ t.x 0x61 = 0xFFFF0000 := by
  decide

/-- V34, R171. -/
theorem test_ldb_takes_bit_7 :
    let t := after (startAt 0 [0x3A, 0x27, 0x61, 0xFF] [])
    t.x pcReg = 0x4 ∧ t.halted = false ∧ t.x 0x61 = 0xFF := by
  decide

/-- V36, R171. -/
theorem test_ldb_takes_whitespace :
    let t := after (startAt 0 [0x3A, 0x27, 0x61, 0x20] [])
    t.x pcReg = 0x4 ∧ t.halted = false ∧ t.x 0x61 = 0x20 := by
  decide

/-- V39, R172. -/
theorem test_ldx_high_digit_first :
    let t := after (startAt 0 [0x3A, 0x23, 0x61, 0x32, 0x41] [])
    t.x pcReg = 0x5 ∧ t.halted = false ∧ t.x 0x61 = 0x2A := by
  decide

/-- V41, R172. -/
theorem test_ldx_bad_digit_halts :
    let t := after (startAt 0 [0x3A, 0x23, 0x61, 0x30, 0x67] [(0x61, 0x7)])
    t.x pcReg = 0x5 ∧ t.halted = true ∧ t.x 0x61 = 0x7 := by
  decide

/-- V44, R173. -/
theorem test_mov_reads_pc :
    let t := after (startAt 0xA [0x3A, 0x3D, 0x72, 0x2E] [])
    t.x pcReg = 0xE ∧ t.halted = false ∧ t.x 0x72 = 0xE := by
  decide

/-- V46, R173. -/
theorem test_mov_writes_sp :
    let t := after (startAt 0 [0x3A, 0x3D, 0x2C, 0x72] [(0x72, 0x8000)])
    t.x pcReg = 0x4 ∧ t.halted = false ∧ t.x 0x2C = 0x8000 := by
  decide

/-- V48, R174. -/
theorem test_badMode_compares_whole_byte :
    let t := after (startAt 0 [0x3A, 0xA7, 0x61, 0x41] [])
    t.x pcReg = 0x2 ∧ t.halted = true ∧ t.x 0x61 = 0x0 := by
  decide

/-- V51, R181. -/
theorem test_ld_address_wraps :
    let t := after ((startAt 0 [0x40, 0x64, 0x61] [(0x61, 0x10040)]).hostAct (.writeByte 0x40 0x2A))
    t.x pcReg = 0x3 ∧ t.halted = false ∧ t.x 0x64 = 0x2A := by
  decide

/-- V52, R181. -/
theorem test_ld_zero_extends :
    let t := after ((startAt 0 [0x40, 0x64, 0x61] [(0x61, 0x40)]).hostAct (.writeByte 0x40 0x80))
    t.x pcReg = 0x3 ∧ t.halted = false ∧ t.x 0x64 = 0x80 := by
  decide

/-- V55, R182. -/
theorem test_st_low_byte :
    let t := after (startAt 0 [0x21, 0x61, 0x73] [(0x61, 0x40), (0x73, 0x1234)])
    t.x pcReg = 0x3 ∧ t.halted = false ∧ t.mem.read 0x40 = 0x34 := by
  decide

/-- V56, R182. -/
theorem test_st_address_wraps :
    let t := after (startAt 0 [0x21, 0x61, 0x73] [(0x61, 0xFFFFFFFF), (0x73, 0x55)])
    t.x pcReg = 0x3 ∧ t.halted = false ∧ t.mem.read 0xFFFF = 0x55 := by
  decide

/-- V60, R185. -/
theorem test_out_whole_word_index_wraps :
    let t := after (startAt 0 [0x7D, 0x70, 0x73] [(0x70, 0x1FF), (0x73, 0xDEADBEEF)])
    t.x pcReg = 0x3 ∧ t.halted = false ∧ t.portVal 255 = 0xDEADBEEF := by
  decide

/-- V63, R184. -/
theorem test_in_index_wraps :
    let t := after ((startAt 0 [0x7B, 0x64, 0x70] [(0x70, 0x105)]).hostAct (.writePort 5 0x63))
    t.x pcReg = 0x3 ∧ t.halted = false ∧ t.x 0x64 = 0x63 := by
  decide

/-- V66, R200. -/
theorem test_jmp :
    let t := after (startAt 0 [0x2E, 0x74] [(0x74, 0x20)])
    t.x pcReg = 0x20 ∧ t.halted = false := by
  decide

/-- V67, R200. -/
theorem test_jmp_to_pc :
    let t := after (startAt 0 [0x2E, 0x2E] [])
    t.x pcReg = 0x2 ∧ t.halted = false := by
  decide

/-- V69, R202. -/
theorem test_jeq_taken :
    let t := after (startAt 0 [0x3F, 0x3D, 0x61, 0x62, 0x74] [(0x61, 0x5), (0x62, 0x5), (0x74, 0x30)])
    t.x pcReg = 0x30 ∧ t.halted = false := by
  decide

/-- V70, R202. -/
theorem test_jeq_not_taken :
    let t := after (startAt 0 [0x3F, 0x3D, 0x61, 0x62, 0x74] [(0x61, 0x5), (0x62, 0x6), (0x74, 0x30)])
    t.x pcReg = 0x5 ∧ t.halted = false := by
  decide

/-- V72, R203. -/
theorem test_jne_taken :
    let t := after (startAt 0 [0x3F, 0x21, 0x69, 0x7A, 0x6C] [(0x69, 0x3), (0x6C, 0xE)])
    t.x pcReg = 0xE ∧ t.halted = false := by
  decide

/-- V73, R203. -/
theorem test_jne_not_taken :
    let t := after (startAt 0 [0x3F, 0x21, 0x61, 0x61, 0x6C] [(0x61, 0x3), (0x6C, 0xE)])
    t.x pcReg = 0x5 ∧ t.halted = false := by
  decide

/-- V74, R204. -/
theorem test_jlt_is_unsigned :
    let t := after (startAt 0 [0x3F, 0x3C, 0x61, 0x62, 0x74] [(0x61, 0xFFFFFFFF), (0x62, 0x1), (0x74, 0x40)])
    t.x pcReg = 0x5 ∧ t.halted = false := by
  decide

/-- V75, R204. -/
theorem test_jlt_taken :
    let t := after (startAt 0 [0x3F, 0x3C, 0x61, 0x62, 0x74] [(0x61, 0x1), (0x62, 0xFFFFFFFF), (0x74, 0x40)])
    t.x pcReg = 0x40 ∧ t.halted = false := by
  decide

/-- V76, R205. -/
theorem test_jgt_is_unsigned :
    let t := after (startAt 0 [0x3F, 0x3E, 0x61, 0x62, 0x74] [(0x61, 0x80000000), (0x62, 0x1), (0x74, 0x40)])
    t.x pcReg = 0x40 ∧ t.halted = false := by
  decide

/-- V77, R205. -/
theorem test_jgt_not_taken :
    let t := after (startAt 0 [0x3F, 0x3E, 0x61, 0x61, 0x74] [(0x61, 0x2), (0x74, 0x40)])
    t.x pcReg = 0x5 ∧ t.halted = false := by
  decide

/-- V78, R208. -/
theorem test_badCmp_halts :
    let t := after (startAt 0 [0x3F, 0x2B, 0x61, 0x62, 0x74] [(0x74, 0x40)])
    t.x pcReg = 0x2 ∧ t.halted = true := by
  decide

/-- V79, R206. -/
theorem test_call_pushes_little_endian :
    let t := after (startAt 0xF [0x3B, 0x66] [(0x66, 0x15)])
    t.x pcReg = 0x15 ∧ t.halted = false ∧ t.x 0x2C = 0xFFFC ∧ t.mem.read 0xFFFC = 0x11 ∧ t.mem.read 0xFFFD = 0x0 ∧ t.mem.read 0xFFFE = 0x0 ∧ t.mem.read 0xFFFF = 0x0 := by
  decide

/-- V82, R206. -/
theorem test_call_push_wraps :
    let t := after (startAt 0x10 [0x3B, 0x66] [(0x66, 0x20), (0x2C, 0x2)])
    t.x pcReg = 0x20 ∧ t.halted = false ∧ t.x 0x2C = 0xFFFFFFFE ∧ t.mem.read 0xFFFE = 0x12 ∧ t.mem.read 0xFFFF = 0x0 ∧ t.mem.read 0x0 = 0x0 ∧ t.mem.read 0x1 = 0x0 := by
  decide

/-- V83, R207. -/
theorem test_ret :
    let t := after ((startAt 0 [0x2C] [(0x2C, 0xFFFC)]).hostAct (.writeByte 0xfffc 0x11))
    t.x pcReg = 0x11 ∧ t.halted = false ∧ t.x 0x2C = 0x10000 := by
  decide

/-- V84, R207. -/
theorem test_ret_unmatched :
    let t := after (startAt 0 [0x2C] [])
    t.x pcReg = 0x2C ∧ t.halted = false ∧ t.x 0x2C = 0x10004 := by
  decide

/-- V85, R123. -/
theorem test_skipSpace :
    let t := after (startAt 0 [0x20] [])
    t.x pcReg = 0x1 ∧ t.halted = false := by
  decide

/-- V86, R123. -/
theorem test_skipTab :
    let t := after (startAt 0 [0x09] [])
    t.x pcReg = 0x1 ∧ t.halted = false := by
  decide

/-- V87, R125. -/
theorem test_halt :
    let t := after (startAt 0x1B [0x00] [])
    t.x pcReg = 0x1C ∧ t.halted = true := by
  decide

/-- V89, R127. -/
theorem test_unknown_digit_halts :
    let t := after (startAt 0 [0x30] [])
    t.x pcReg = 0x1 ∧ t.halted = true := by
  decide

/-- V90, R127. -/
theorem test_unknown_opcode_is_not_masked :
    let t := after (startAt 0 [0xAB] [])
    t.x pcReg = 0x1 ∧ t.halted = true := by
  decide

/-- V92, R122. -/
theorem test_fetch_at_the_bound :
    let t := after (startAt 0x10000 [] [])
    t.x pcReg = 0x10000 ∧ t.halted = true := by
  decide

/-- V95, R122. -/
theorem test_operand_fetch_out_of_range :
    let t := after (startAt 0xFFFD [0x2B, 0x63, 0x61] [(0x63, 0x9)])
    t.x pcReg = 0x10000 ∧ t.halted = true ∧ t.x 0x63 = 0x9 := by
  decide

/-- V18, R127: with HAS_MOD false `%` halts. -/
theorem test_mod_absent :
    let s := startAt 0 [0x25, 0x63, 0x61, 0x62] [(0x61, 7), (0x62, 3)]
    let t := after { cfg := { s.cfg with hasMod := false }, regs := s.regs, mem := s.mem, ports := s.ports,
                     halted := false, blockedIn := none, signals := [], hostScript := [] }
    t.x pcReg = 1 ∧ t.halted = true ∧ t.x 0x63 = 0 := by
  decide

/-- V59, R185: the slot, then one write-hook call with the port number. -/
theorem test_out_calls_the_write_hook_once :
    let t := after (withHooks (startAt 0 [0x7D, 0x70, 0x73] [(0x70, 5), (0x73, 0x63)]) [.keeps])
    t.x pcReg = 3 ∧ t.halted = false ∧ t.portVal 5 = 0x63 ∧ t.signals = [.wasWritten 5] ∧ t.blockedIn = none := by
  decide

/-- V65, R225: the read hook writes 0x77 into PORT[7], and the read takes it. -/
theorem test_in_takes_what_the_read_hook_wrote :
    let t := after (withHooks ((startAt 0 [0x7B, 0x64, 0x70] [(0x70, 7)]).hostAct (.writePort 7 1)) [.writes 0x77])
    t.x pcReg = 3 ∧ t.x 0x64 = 0x77 ∧ t.portVal 7 = 0x77 ∧ t.signals = [.aboutToRead 7] := by
  decide

/-- R228: a read hook that never returns; the destination is not written and HALTED stays 0. -/
theorem test_in_hook_never_returns :
    let t := after (withHooks (startAt 0 [0x7B, 0x64, 0x70] [(0x70, 7), (0x64, 9)]) [.blocks])
    t.x pcReg = 3 ∧ t.x 0x64 = 9 ∧ t.halted = false ∧ t.blockedIn = some (.aboutToRead 7) := by
  decide

/-- R225, R228: a read hook that writes its slot and never returns (log 18); a host write tried then changes nothing (R253). -/
theorem test_in_hook_writes_and_never_returns :
    let t := after (withHooks (startAt 0 [0x7B, 0x64, 0x70] [(0x70, 7), (0x64, 9)]) [.writesThenBlocks 0x77])
    t.x 0x64 = 9 ∧ t.portVal 7 = 0x77 ∧ t.halted = false ∧ t.blockedIn = some (.aboutToRead 7) ∧
      (t.hostAct (.writeReg 0x64 1)).x 0x64 = 9 := by
  decide

/-- V93, R131: OOB_FETCH_PC = incremented. -/
theorem test_fetch_at_the_bound_incremented :
    let s := startAt 0x10000 [] []
    let t := after { cfg := { s.cfg with oobFetchPc := .incremented }, regs := s.regs, mem := s.mem, ports := s.ports,
                     halted := false, blockedIn := none, signals := [], hostScript := [] }
    t.x pcReg = 0x10001 ∧ t.halted = true := by
  decide

/-- V57, R182: `!..` stores the low byte of the address after itself there. -/
theorem test_st_stores_where_the_next_fetch_reads :
    let t := after (startAt 0x100 [0x21, 0x2E, 0x2E] [])
    t.x pcReg = 0x103 ∧ t.mem.read 0x103 = 3 ∧ t.fetchWindow.head? = some 3 := by
  decide

/-- R47, R250: the state after reset. -/
theorem test_reset :
    State.reset.x pcReg = 0 ∧ State.reset.x spReg = 0x10000 ∧ State.reset.x 0 = 0 ∧ State.reset.portVal 255 = 0 ∧
      State.reset.halted = false ∧ State.reset.mem.wf := by
  decide

/-- A table word stored where the next step fetches runs there: MOV of register 0 into itself, and `:` with a bad
selector. -/
theorem test_withFetchWord :
    (after (State.reset.withFetchWord 16 0x3A3D)).x pcReg = 4 ∧
      (after (State.reset.withFetchWord 16 0x3A3D)).halted = false ∧
      (after (State.reset.withFetchWord 16 0x3A00)).x pcReg = 2 ∧
      (after (State.reset.withFetchWord 16 0x3A00)).halted = true := by
  decide

/-- The narrowest machine, with M = W. -/
def narrow : Config where
  wordBits := 8
  memBits := 8
  hasMod := false
  oobFetchPc := .incremented
  readHook := true
  writeHook := true
  admissible := by decide

/-- A machine whose stack word has more bytes than its store: 4 bytes in 2 (log 11). -/
def tiny : Config where
  wordBits := 32
  memBits := 1
  hasMod := true
  oobFetchPc := .unchanged
  readHook := false
  writeHook := false
  admissible := by decide

/-- A core of that machine, with `;` and its operand byte as the whole store. -/
def tinyCore : State where
  cfg := tiny
  regs := (Vector.replicate 128 0).set 46 0x44332211
  mem := [(0, 0x3B), (1, 0x66)]
  ports := Vector.replicate 256 0
  halted := false
  blockedIn := none
  signals := []
  hostScript := []

/-- R65's loop by hand: of the bytes 11 22 33 44 pushed at sp - 4 = 0xFFFFFFFC, the two last stay (log 11). -/
theorem test_push_longer_than_the_store :
    (tinyCore.push tinyCore.pc).mem = [(0, 0x33), (1, 0x44)] ∧ (tinyCore.push tinyCore.pc).x spReg = 0xFFFFFFFC := by
  decide

/-- R34: where M = W, pc wraps to 0 inside an instruction: `.` at 0xFF takes its operand from 0. -/
theorem test_fetch_wraps_where_memory_fills_the_word :
    let s : State := { cfg := narrow, regs := (Vector.replicate 128 7).set 46 0xFF, mem := [(0, 1), (0xFF, 0x2E)],
                       ports := Vector.replicate 256 0, halted := false, blockedIn := none, signals := [],
                       hostScript := [] }
    (after s).x pcReg = 7 ∧ (after s).halted = false := by
  decide

/-! ## Witnesses: states and operands that meet the hypotheses of the statements -/

/-- A running core: `!as` stands at 0x20, then `@da`. -/
def runningCore : State :=
  startAt 0x20 [0x21, 0x61, 0x73, 0x40, 0x64, 0x61] [(0x61, 0x40), (0x73, 0x12AB), (0x66, 0x15)]

/-- A core whose next fetch is out of range. -/
def coreAtTheBound : State := startAt 0x10000 [] []

/-- A core in a read hook that has not returned. -/
def coreInAHook : State := after (withHooks (startAt 0 [0x7B, 0x64, 0x70] [(0x70, 7)]) [.blocks])

theorem witness_DecodeOfEncodeIsTheInstruction :
    (Instr.mod 0 1 127).wf true = true ∧ (Instr.haltUnknown 0xFF).wf true = true ∧
      (Instr.haltUnknown 0x25).wf false = true ∧ (Instr.haltBadMode 0x28).wf true = true ∧
      (Instr.haltBadCmp 0x3F).wf true = true ∧ (Instr.ldx 0 0x67 0xFF).wf false = true := by
  decide

theorem witness_DecodedBytesAreTheEncodingUpToIgnoredBits :
    decode true [0x2B, 0xE1, 0x62, 0x63, 0x00] = .ok (.add 0x61 0x62 0x63, [0x00]) := rfl

theorem witness_DecodeFollowsTheOpcodeTable :
    decode true [0x25, 0, 0, 0] = .ok (.mod 0 0 0, []) ∧ decode false [0x25, 0, 0, 0] = .ok (.haltUnknown 0x25, [0, 0, 0]) ∧
      decode true [0x3A, 0x3A] = .ok (.haltBadMode 0x3A, []) := ⟨rfl, rfl, rfl⟩

theorem witness_OnlyRegisterBytesAreMasked : (0x80 : Byte) ≤ 0x80 ∧ (0x80 : Byte) ≤ 0xFF ∧ (8 : Nat) ≤ 8 := by decide

theorem witness_HexDigitValues :
    hexval 0x2F = none ∧ hexval 0x3A = none ∧ hexval 0x40 = none ∧ hexval 0x47 = none ∧ hexval 0x60 = none ∧
      hexval 0x67 = none ∧ hexval 0x30 = some 0 ∧ hexval 0x39 = some 9 ∧ hexval 0x41 = some 10 ∧ hexval 0x46 = some 15 ∧
      hexval 0x61 = some 10 ∧ hexval 0x66 = some 15 := by
  decide

theorem witness_LoadHexDigitsOrHalt :
    hexval 0x30 = some 0 ∧ hexval 0x66 = some 15 ∧ hexval 0xB0 = none := by decide

theorem witness_StoreWritesOneByteAtTheWrappedAddress :
    (0x41 : Nat) ≠ runningCore.dataAddress (runningCore.reg 0x61) := by decide

/-- One state for each clause: no hook, and each reply of an installed one. -/
theorem witness_PortReadTakesTheSlotTheHookLeft :
    runningCore.cfg.readHook = false ∧
    (withHooks runningCore [.keeps]).cfg.readHook = true ∧ (withHooks runningCore [.keeps]).hostReply = .keeps ∧
    (withHooks runningCore [.writes 7]).hostReply = .writes 7 ∧ (withHooks runningCore [.blocks]).hostReply = .blocks ∧
    (withHooks runningCore [.writesThenBlocks 7]).hostReply = .writesThenBlocks 7 := by
  decide

theorem witness_PortWriteStoresTheWordThenCallsTheHook :
    runningCore.cfg.writeHook = false ∧ (withHooks runningCore [.blocks]).cfg.writeHook = true := by decide

theorem witness_PortWriteThenReadReturnsTheWord :
    ∃ t, exec (.out 0x61 0x73) runningCore = .next t ∧ runningCore.cfg.readHook = false ∧
      runningCore.cfg.writeHook = false ∧ t.x 0x61 % 256 = runningCore.x 0x61 % 256 :=
  ⟨_, rfl, by decide, by decide, by decide⟩

theorem witness_StoreThenLoadReturnsTheByte :
    ∃ t, exec (.st 0x61 0x73) runningCore = .next t ∧
      t.x 0x61 % runningCore.cfg.memSize = runningCore.x 0x61 % runningCore.cfg.memSize :=
  ⟨_, rfl, by decide⟩

theorem witness_StoreIsSeenByTheNextFetch :
    ∃ t, exec (.st pcReg 0x73) runningCore = .next t ∧ runningCore.x pcReg < runningCore.cfg.memSize ∧
      runningCore.dataAddress (runningCore.reg pcReg) = runningCore.x pcReg :=
  ⟨_, rfl, by decide, by decide⟩

theorem witness_MemReadIsLittleEndian : 1 ≤ 4 ∧ 4 ≤ State.reset.cfg.wordBits / 8 ∧ 1 ≤ narrow.wordBits / 8 := by decide

/-- Four bytes at 0xFFFE: no two wrap to one address; and an address outside them. -/
theorem witness_MemWriteStoresTheLowBytes :
    4 ≤ State.reset.cfg.wordBits / 8 ∧
    (∀ j, j < 4 → 0 < j → (0xFFFE + j) % State.reset.cfg.memSize ≠ (0xFFFE + 0) % State.reset.cfg.memSize) ∧
    (∀ k, k < 4 → 2 ≠ (0xFFFE + k) % State.reset.cfg.memSize) := by
  decide

/-- Where two addresses meet: of four bytes at 0 in a store of two, byte 2 is the last at its address, byte 3 the last of
all, and byte 0 is not. -/
theorem witness_MemWriteStoresTheLowBytes_overlap :
    4 ≤ tiny.wordBits / 8 ∧ (∀ j, j < 4 → 2 < j → (0 + j) % tiny.memSize ≠ (0 + 2) % tiny.memSize) ∧
    (∀ j, j < 4 → 3 < j → (0 + j) % tiny.memSize ≠ (0 + 3) % tiny.memSize) ∧
    (0 + 2) % tiny.memSize = (0 + 0) % tiny.memSize ∧ (∀ k, k < 4 → 2 ≠ (0 + k) % tiny.memSize) := by
  decide

/-- The pushed bytes of a call that wraps, each at an address of its own, and an address outside them. -/
theorem witness_CallPushesTheReturnAddress :
    let s := startAt 0 [] [(spReg, 2)]
    (∀ j, j < s.cfg.wordBits / 8 → 0 < j →
      (s.pushedSp.toNat + j) % s.cfg.memSize ≠ (s.pushedSp.toNat + 0) % s.cfg.memSize) ∧
    (∀ k, k < s.cfg.wordBits / 8 → 2 ≠ (s.pushedSp.toNat + k) % s.cfg.memSize) := by
  decide

/-- Where two stack addresses meet: byte 2 of the pushed word is the last at its address, and byte 0 is not. -/
theorem witness_CallPushesTheReturnAddress_overlap :
    let p := tinyCore.pushedSp.toNat
    (∀ j, j < tinyCore.cfg.wordBits / 8 → 2 < j →
      (p + j) % tinyCore.cfg.memSize ≠ (p + 2) % tinyCore.cfg.memSize) ∧
    2 < tinyCore.cfg.wordBits / 8 ∧ (p + 2) % tinyCore.cfg.memSize = (p + 0) % tinyCore.cfg.memSize ∧
    (∀ k, k < tinyCore.cfg.wordBits / 8 → 2 ≠ (p + k) % tinyCore.cfg.memSize) := by
  decide

/-- The activity between the call and the return writes register 1. -/
theorem witness_ReturnComesBackToTheCall :
    ∃ t, exec (.call 0x66) runningCore = .next t ∧
      runningCore.cfg.stackBytes ≤ runningCore.cfg.memSize ∧
      ∃ t' : State, t'.cfg = t.cfg ∧ t'.x spReg = t.x spReg ∧ t'.x 1 = 5 ∧ ∀ k, k < t.cfg.stackBytes →
        t'.mem.read ((t.x spReg + k) % t.cfg.memSize) = t.mem.read ((t.x spReg + k) % t.cfg.memSize) :=
  ⟨_, rfl, by decide, ((runningCore.push runningCore.pc).setPc (runningCore.reg 0x66)).setReg 1 (5 : Word 32), rfl,
    by decide, by decide, fun _ _ => rfl⟩

/-- Bytes standing at pc, for each way to halt. -/
theorem witness_HaltInstructionsOnlyHalt :
    isUnknownOpcode true 0x30 = true ∧ (0x78 : Byte) ∉ ([0x27, 0x23, 0x3D] : List Byte) ∧
    (0x78 : Byte) ∉ ([0x3D, 0x21, 0x3C, 0x3E] : List Byte) ∧ runningCore.stopped = false ∧
    (startAt 0xFFFF [0x00] []).fetchWindow = [0x00] ∧ (startAt 0xFFFF [0x30] []).fetchWindow = [0x30] ∧
    (startAt 0xFFFE [0x3A, 0x78] []).fetchWindow = [0x3A, 0x78] ∧
    (startAt 0xFFFE [0x3F, 0x78] []).fetchWindow = [0x3F, 0x78] := by
  decide

theorem witness_WhitespaceChangesNothing :
    (startAt 0xFFFF [0x20] []).stopped = false ∧ (startAt 0xFFFF [0x20] []).BytesAtPc [0x20] := by
  refine ⟨by decide, fun k b h => ?_⟩
  have hw : (startAt 0xFFFF [0x20] []).fetchWindow = [0x20] := by decide
  exact fetchBytes_get _ _ k b (by rw [← hw] at h; exact h)

theorem witness_StepRunsTheDecodedInstruction :
    runningCore.stopped = false ∧
      decode runningCore.cfg.hasMod runningCore.fetchWindow = .ok (.st 0x61 0x73, [0x40, 0x64]) :=
  ⟨by decide, rfl⟩

theorem witness_StepRunsTheInstructionStandingAtPc :
    let s := startAt 0xFFFD [0x40, 0x64, 0x61] []
    s.stopped = false ∧ s.BytesAtPc [0x40, 0x64, 0x61] ∧ decode s.cfg.hasMod [0x40, 0x64, 0x61] = .ok (.ld 0x64 0x61, []) := by
  refine ⟨by decide, fun k b h => ?_, rfl⟩
  have hw : (startAt 0xFFFD [0x40, 0x64, 0x61] []).fetchWindow = [0x40, 0x64, 0x61] := by decide
  exact fetchBytes_get _ _ k b (by rw [← hw] at h; exact h)

theorem witness_FetchReadsTheStoreAtPc :
    (startAt 0xFFFF [0x2B] []).fetchWindow = [0x2B] ∧ coreAtTheBound.fetchWindow = [] := by decide

theorem witness_RunRepeatsTheStepUntilHalted :
    (after (startAt 0 [0] [])).halted = true ∧ (∃ t, runningCore.halted = false ∧ step runningCore = .next t) ∧
      (∃ t, run 1 State.reset = .next (.ended t)) ∧ (∃ t, run 0 State.reset = .next (.running t)) :=
  ⟨by decide, ⟨_, by decide, rfl⟩, ⟨_, rfl⟩, ⟨_, rfl⟩⟩

theorem witness_MoreFuelKeepsTheEndOfARun : ∃ t, run 1 State.reset = .next (.ended t) := ⟨_, rfl⟩

theorem witness_OutOfRangeFetchHalts :
    coreAtTheBound.stopped = false ∧
      decode coreAtTheBound.cfg.hasMod coreAtTheBound.fetchWindow = .error .truncated ∧
      decode true (startAt 0xFFFF [0x2B] []).fetchWindow = .error .truncated :=
  ⟨by decide, rfl, rfl⟩

theorem witness_StepHaltsExactlyOnTheHaltConditions :
    ∃ t, State.reset.stopped = false ∧ step State.reset = .next t := ⟨_, by decide, rfl⟩

/-- A halting instruction, an operand fetch out of range, and an opcode fetch out of range. -/
theorem witness_HaltingStepOnlyMovesPc :
    (∃ t, State.reset.stopped = false ∧ step State.reset = .next t ∧ t.halted = true) ∧
    (decode State.reset.cfg.hasMod State.reset.fetchWindow = .ok (.halt, [0, 0, 0, 0]) ∧ Instr.halt.haltsWhenRun) ∧
    decode true (startAt 0xFFFF [0x2B] []).fetchWindow = .error .truncated ∧
    coreAtTheBound.cfg.memSize ≤ coreAtTheBound.x pcReg :=
  ⟨⟨_, by decide, rfl, by decide⟩, ⟨rfl, trivial⟩, rfl, by decide⟩

theorem witness_EveryStepKeepsTheInvariant : ∃ t, State.reset.Inv ∧ step State.reset = .next t :=
  ⟨_, ⟨by decide, by decide, by simp [State.reset]⟩, rfl⟩

theorem witness_ResetMeetsTheInvariant :
    Memory.wf [(0x40, 0x2A), (0xFFFF, 0x01)] ∧
      Memory.within [(0x40, 0x2A), (0xFFFF, 0x01)] State.reset.cfg.memSize := by
  decide

theorem witness_NoStepChangesTheParameters : ∃ t, step runningCore = .next t := ⟨_, rfl⟩

theorem witness_OnlyStoreAndCallChangeMemory :
    (∃ t, exec (.st 0x61 0x73) runningCore = .next t ∧ t.mem.read 0x40 ≠ runningCore.mem.read 0x40) ∧
    ∃ t, exec (.call 0x66) runningCore = .next t ∧ t.mem.read 0xFFFC ≠ runningCore.mem.read 0xFFFC :=
  ⟨⟨_, rfl, by decide⟩, ⟨_, rfl, by decide⟩⟩

theorem witness_OnlyPortInstructionsReachPortsAndHooks :
    ∃ t, exec (.mov 1 2) runningCore = .next t ∧ (∀ d p, Instr.mov 1 2 ≠ .inp d p) ∧ ∀ p src, Instr.mov 1 2 ≠ .out p src :=
  ⟨_, rfl, by simp, by simp⟩

theorem witness_WithoutHooksRepliesDoNotMatter :
    ∃ t, runningCore.cfg.readHook = false ∧ runningCore.cfg.writeHook = false ∧ step runningCore = .next t :=
  ⟨_, by decide, by decide, rfl⟩

theorem witness_CoreInAHookThatNeverReturnsIsStuck :
    coreInAHook.Inv ∧ coreInAHook.blockedIn = some (.aboutToRead 7) := by
  have hb : coreInAHook.blockedIn = some (.aboutToRead 7) := by decide
  refine ⟨⟨by decide, by decide, fun c hc => ?_⟩, hb⟩
  rw [hb] at hc
  cases hc
  decide

/-- A core between steps, and one whose step is still in a hook. -/
theorem witness_HostWritesReachOnlyTheirTarget :
    runningCore.blockedIn = none ∧ coreInAHook.blockedIn = some (.aboutToRead 7) ∧
      0xFFFF < State.reset.cfg.memSize ∧ (0 : Nat) ≠ 0xFFFF ∧ ∀ buffer, HostAction.load [] ≠ .init buffer := by
  refine ⟨by decide, by decide, by decide, by decide, by simp⟩

theorem witness_EveryRegisterReadsBackWhatWasWritten : pcReg ≠ spReg := by decide

end Sys2Proof.Tests
end

section

namespace Sys2Proof

/-- The store's size divides the number of words: both are powers of two, and M is at most W (00_scope.md R9). -/
theorem Config.memSize_dvd_two_pow_wordBits (c : Config) : c.memSize ∣ 2 ^ c.wordBits := by
  obtain ⟨-, -, -, memBits_le_wordBits⟩ := c.admissible
  exact Nat.pow_dvd_pow 2 memBits_le_wordBits

/-- Every address of the store fits a register (00_scope.md R9). -/
theorem Config.lt_two_pow_wordBits_of_lt_memSize (c : Config) {a : Nat} (ha : a < c.memSize) :
    a < 2 ^ c.wordBits :=
  Nat.lt_of_lt_of_le ha (Nat.le_of_dvd (Nat.two_pow_pos _) c.memSize_dvd_two_pow_wordBits)

/-- Settles O53: the sizes are admissible by the record's own proof, and the bounds on the store follow from M ≤ W. -/
theorem everyMachineHasAdmissibleParameters : Obligations.EveryMachineHasAdmissibleParameters := by
  intro s
  obtain ⟨bytes, eight_le, one_le_memBits, memBits_le_wordBits⟩ := s.cfg.admissible
  exact ⟨bytes, eight_le, one_le_memBits, memBits_le_wordBits,
    fun _ ha => s.cfg.lt_two_pow_wordBits_of_lt_memSize ha, s.cfg.memSize_dvd_two_pow_wordBits⟩

end Sys2Proof

end

section

/-! Proofs of the statements on the state (10_state.md): the register bytes, reset, the frame of every instruction, the
halts, the parameters, the host's replies, and the instruction that stands at pc. -/

namespace Sys2Proof

/-! ## Bytes of 0x80 or more (30_encoding.md R96) -/

/-- A byte of 0x80 or more stands in no list of bytes that have bit 7 clear. -/
theorem not_mem_of_bit7 {bs : List Byte} (hbs : ∀ b ∈ bs, b < 0x80) {c : Byte} (hc : 0x80 ≤ c) : c ∉ bs :=
  fun hmem => absurd (hbs c hmem) (BitVec.not_lt.mpr hc)

/-- Every opcode byte of the map has bit 7 clear, so that a byte of 0x80 or more is unknown. -/
theorem isUnknownOpcode_of_bit7 (hasMod : Bool) {op : Byte} (hop : 0x80 ≤ op) : isUnknownOpcode hasMod op = true := by
  have hknown : op ∉ knownFirstBytes := not_mem_of_bit7 (by decide) hop
  have hmod : op ≠ 0x25 := by rintro rfl; exact absurd hop (by decide)
  simpa [isUnknownOpcode, hknown] using Or.inr hmod

/-- Every selector byte of `:` has bit 7 clear. -/
theorem isBadMode_of_bit7 {m : Byte} (hm : 0x80 ≤ m) : isBadMode m = true := by
  have hselector : m ∉ ([0x27, 0x23, 0x3D] : List Byte) := not_mem_of_bit7 (by decide) hm
  simpa [isBadMode] using hselector

/-- Every comparison byte of `?` has bit 7 clear. -/
theorem isBadCmp_of_bit7 {c : Byte} (hc : 0x80 ≤ c) : isBadCmp c = true := by
  have hcomparison : c ∉ ([0x3D, 0x21, 0x3C, 0x3E] : List Byte) := not_mem_of_bit7 (by decide) hc
  simpa [isBadCmp] using hcomparison

/-- Every hex digit has bit 7 clear: each of the three ranges ends below 0x80 (R98). -/
theorem Machine.hexval_of_bit7 {c : Byte} (hc : 0x80 ≤ c) : Machine.hexval c = none := by
  have outside : ∀ lo hi : Byte, hi < 0x80 → ¬(lo ≤ c ∧ c ≤ hi) := fun _ _ hhi hrange =>
    BitVec.not_lt.mpr (BitVec.le_trans hc hrange.2) hhi
  rw [Machine.hexval, if_neg (outside _ _ (by decide)), if_neg (outside _ _ (by decide)),
    if_neg (outside _ _ (by decide))]

/-- A register byte's bit 7 is ignored (10_state.md R31). -/
theorem regOf_setBit7 (b : Byte) : regOf (b ||| 0x80) = regOf b := by
  apply Fin.ext
  rw [regOf_val, regOf_val, BitVec.toNat_or]
  have h := Nat.or_mod_two_pow (a := b.toNat) (b := (0x80 : Byte).toNat) (n := 7)
  simpa using h

/-- A literal byte is zero-extended whole in any word that holds it (30_encoding.md R97). -/
theorem Machine.toNat_literalOperand {w : Nat} (hw : 8 ≤ w) (v : Byte) :
    (Machine.literalOperand w v).toNat = v.toNat := by
  rw [Machine.literalOperand, BitVec.toNat_setWidth]
  exact Nat.mod_eq_of_lt (Nat.lt_of_lt_of_le v.isLt (Nat.pow_le_pow_right (by decide) hw))

/-- Settles O4: of the bytes of an instruction only those that name registers are masked. -/
theorem onlyRegisterBytesAreMasked : Obligations.OnlyRegisterBytesAreMasked := by
  refine ⟨fun b => ⟨regOf_val b, regOf_setBit7 b⟩, ?_, ?_, fun c hc => Machine.hexval_of_bit7 hc, ?_,
    fun w v hw => Machine.toNat_literalOperand hw v⟩
  · intro hasMod op rest hop
    exact decode_unknown (isUnknownOpcode_of_bit7 hasMod hop) rest
  · intro hasMod m rest hm
    rw [decode_colon, decode_question]
    exact ⟨decodeColon_bad rest (isBadMode_of_bit7 hm), decodeQuestion_bad rest (isBadCmp_of_bit7 hm)⟩
  · intro hasMod p v rest
    rw [decode_colon, decodeColon_ldb, takeRegByte]

/-! ## How many bytes an instruction takes -/

/-- No instruction is longer than the window that a step fetches (30_encoding.md R104). -/
theorem Instr.length_le_max (i : Instr) : i.length ≤ maxInstrLength := by
  cases i <;> simp [Instr.length, maxInstrLength]

/-- Of the bytes `bs`, which follow the first `k` bytes of an instruction, `d` takes exactly that instruction's. -/
def Takes (k : Nat) (bs : List Byte) (d : Decoded) : Prop :=
  ∀ i rest, d = .ok (i, rest) → k + bs.length = i.length + rest.length

section Takes

variable {k : Nat} {bs : List Byte}

theorem Takes.error (e : DecodeError) : Takes k bs (.error e) := by
  intro i rest h
  cases h

theorem Takes.cons {b : Byte} {d : Decoded} (h : Takes (k + 1) bs d) : Takes k (b :: bs) d := by
  intro i rest hd
  have hk := h i rest hd
  rw [List.length_cons]
  omega

theorem Takes.ite {c : Prop} [Decidable c] {d d' : Decoded} (h : Takes k bs d) (h' : Takes k bs d') :
    Takes k bs (if c then d else d') := by
  split
  · exact h
  · exact h'

theorem Takes.ok {j : Instr} (hj : j.length = k) : Takes k bs (.ok (j, bs)) := by
  intro i rest h
  cases h
  rw [hj]

theorem Takes.reg1 {f : Reg → Instr} (hf : ∀ r, (f r).length = k + 1) : Takes k bs (takeReg1 f bs) := by
  intro i rest h
  obtain ⟨r, rfl, rfl⟩ := takeReg1_ok.mp h
  simp only [hf, List.length_cons]
  omega

theorem Takes.reg2 {f : Reg → Reg → Instr} (hf : ∀ q r, (f q r).length = k + 2) :
    Takes k bs (takeReg2 f bs) := by
  intro i rest h
  obtain ⟨q, r, rfl, rfl⟩ := takeReg2_ok.mp h
  simp only [hf, List.length_cons]
  omega

theorem Takes.reg3 {f : Reg → Reg → Reg → Instr} (hf : ∀ p q r, (f p q r).length = k + 3) :
    Takes k bs (takeReg3 f bs) := by
  intro i rest h
  obtain ⟨p, q, r, rfl, rfl⟩ := takeReg3_ok.mp h
  simp only [hf, List.length_cons]
  omega

theorem Takes.regByte {f : Reg → Byte → Instr} (hf : ∀ d v, (f d v).length = k + 2) :
    Takes k bs (takeRegByte f bs) := by
  intro i rest h
  obtain ⟨d, v, rfl, rfl⟩ := takeRegByte_ok.mp h
  simp only [hf, List.length_cons]
  omega

theorem Takes.regByteByte {f : Reg → Byte → Byte → Instr} (hf : ∀ d x y, (f d x y).length = k + 3) :
    Takes k bs (takeRegByteByte f bs) := by
  intro i rest h
  obtain ⟨d, x, y, rfl, rfl⟩ := takeRegByteByte_ok.mp h
  simp only [hf, List.length_cons]
  omega

end Takes

/-- The formats of the second-byte map of `:` have the lengths of their instructions (30_encoding.md R100, R104). -/
theorem takes_decodeColon (bs : List Byte) : Takes 1 bs (decodeColon bs) := by
  cases bs with
  | nil => exact .error _
  | cons _ rest =>
    exact .cons <| .ite (.regByte fun _ _ => rfl) <| .ite (.regByteByte fun _ _ _ => rfl) <|
      .ite (.reg2 fun _ _ => rfl) <| .ok rfl

/-- The formats of the second-byte map of `?` have the lengths of their instructions (R101, R104). -/
theorem takes_decodeQuestion (bs : List Byte) : Takes 1 bs (decodeQuestion bs) := by
  cases bs with
  | nil => exact .error _
  | cons _ rest =>
    exact .cons <| .ite (.reg3 fun _ _ _ => rfl) <| .ite (.reg3 fun _ _ _ => rfl) <| .ite (.reg3 fun _ _ _ => rfl) <|
      .ite (.reg3 fun _ _ _ => rfl) <| .ok rfl

/-- The formats of the first-byte map have the lengths of their instructions, in the order of its rows (R99, R104). -/
theorem takes_decode (hasMod : Bool) (bs : List Byte) : Takes 0 bs (decode hasMod bs) := by
  cases bs with
  | nil => exact .error _
  | cons _ rest =>
    exact .cons <| .ite (.ok rfl) <| .ite (.ok rfl) <| .ite (.ok rfl) <| .ite (.ok rfl) <| .ite (.ok rfl) <|
      .ite (.ok rfl) <| .ite (.ok rfl) <| .ite (.reg2 fun _ _ => rfl) <| .ite (.reg3 fun _ _ _ => rfl) <|
      .ite (.reg3 fun _ _ _ => rfl) <| .ite (.reg3 fun _ _ _ => rfl) <| .ite (.reg3 fun _ _ _ => rfl) <|
      .ite (.ok rfl) <| .ite (.reg3 fun _ _ _ => rfl) <| .ite (.reg1 fun _ => rfl) <| .ite (.reg3 fun _ _ _ => rfl) <|
      .ite (takes_decodeColon rest) <| .ite (.reg1 fun _ => rfl) <| .ite (.reg3 fun _ _ _ => rfl) <|
      .ite (.reg3 fun _ _ _ => rfl) <| .ite (takes_decodeQuestion rest) <| .ite (.reg2 fun _ _ => rfl) <|
      .ite (.reg3 fun _ _ _ => rfl) <| .ite (.reg2 fun _ _ => rfl) <| .ite (.reg3 fun _ _ _ => rfl) <|
      .ite (.reg2 fun _ _ => rfl) <| .ite (.reg2 fun _ _ => rfl) <| .ok rfl

/-- An instruction takes exactly its length in bytes. -/
theorem decode_length {hasMod : Bool} {bs rest : List Byte} {i : Instr} (h : decode hasMod bs = .ok (i, rest)) :
    bs.length = i.length + rest.length := by
  simpa using takes_decode hasMod bs i rest h

namespace Machine

/-! ## The step -/

/-- Where the bytes of an instruction stand at pc, the window begins with them. -/
theorem State.BytesAtPc.fetchWindow {s : State} {bs : List Byte} (h : s.BytesAtPc bs)
    (hlen : bs.length ≤ maxInstrLength) : ∃ more, s.fetchWindow = bs ++ more :=
  fetchBytes_prefix s.pc maxInstrLength bs hlen h

/-- Settles O33: the window begins with the bytes at pc, and the bytes after them do not change what it decodes to. -/
theorem stepRunsTheInstructionStandingAtPc : Obligations.StepRunsTheInstructionStandingAtPc := by
  intro s bs i hs hbytes hdecode
  have hlen : bs.length = i.length := by simpa using decode_length hdecode
  obtain ⟨more, hwindow⟩ := hbytes.fetchWindow (hlen ▸ i.length_le_max)
  have hwindowDecode : decode s.cfg.hasMod s.fetchWindow = .ok (i, more) := by
    rw [hwindow]
    exact decode_append hdecode more
  have htaken : s.fetchWindow.length - more.length = i.length := by
    have := decode_length hwindowDecode
    omega
  refine ⟨?_, s.advance_writesOnly i.length⟩
  simp only [step_of_running hs, hwindowDecode, htaken]

/-! ## What the port operations leave as it was -/

/-- The state in which a port operation ends, whether or not its hook returned. -/
def HookEnd.state : HookEnd → State
  | .returned t => t
  | .blocked t => t

@[simp] theorem HookEnd.state_returned (t : State) : (HookEnd.returned t).state = t := rfl
@[simp] theorem HookEnd.state_blocked (t : State) : (HookEnd.blocked t).state = t := rfl

/-- A port read changes neither the parameters nor HALTED (60_exceptions.md R225). -/
theorem State.portRead_keeps {s : State} {n : Port} {e : HookEnd} (he : s.portRead n = e) :
    e.state.cfg = s.cfg ∧ e.state.halted = s.halted := by
  subst he
  rcases s.portRead_cases n with ⟨-, h⟩ | ⟨-, -, h⟩ | ⟨v, -, -, h⟩ | ⟨-, -, h⟩ | ⟨v, -, -, h⟩
  all_goals simp [h]

/-- A port write changes neither the parameters nor HALTED (R226). -/
theorem State.portWrite_keeps {s : State} {n : Port} {w : Nat} {v : Word w} {e : HookEnd}
    (he : s.portWrite n v = e) : e.state.cfg = s.cfg ∧ e.state.halted = s.halted := by
  subst he
  rcases s.portWrite_cases n v with ⟨-, h⟩ | ⟨-, -, h⟩ | ⟨-, -, h⟩
  all_goals simp [h]

/-! ## The parameters -/

/-- No instruction changes the parameters. -/
theorem Does.cfg {s t : State} {i : Instr} (h : Does s i t) : t.cfg = s.cfg := by
  cases h with
  | writesReg | nothing | halts | stores | calls | returns => rfl
  | readsPort d p u hu => exact (State.portRead_keeps hu).1
  | readBlocks d p u hu => exact (State.portRead_keeps hu).1
  | writesPort p src u hu => exact (State.portWrite_keeps hu).1
  | writeBlocks p src u hu => exact (State.portWrite_keeps hu).1

/-- Settles O44: neither an instruction nor a fetch out of range changes a parameter. -/
theorem noStepChangesTheParameters : Obligations.NoStepChangesTheParameters := by
  intro s t h
  rcases step_cases h with ⟨-, rfl⟩ | ⟨-, i, rest, -, hexec⟩ | ⟨-, -, rfl⟩
  · rfl
  · exact (exec_does hexec).cfg
  · obtain ⟨-, -, -, -, -, -, hcfg, -⟩ := (s.advance s.fetchWindow.length).fetchOutOfRange_does
    exact hcfg

/-! ## Halts -/

/-- The case of an instruction that is none of those that halt and leaves HALTED as it was. -/
theorem halted_iff_of_same {s t : State} {i : Instr} (hsame : t.halted = s.halted) (hi : ¬i.haltsWhenRun) :
    t.halted = true ↔ s.halted = true ∨ i.haltsWhenRun := by
  simp [hsame, hi]

/-- An instruction leaves HALTED set exactly if it was set or the instruction is one that halts (10_state.md R41). -/
theorem Does.halted_iff {s t : State} {i : Instr} (h : Does s i t) :
    t.halted = true ↔ s.halted = true ∨ i.haltsWhenRun := by
  cases h with
  | writesReg i d v hh => exact halted_iff_of_same rfl hh
  | nothing i hh => exact halted_iff_of_same rfl hh
  | halts i hh => exact ⟨fun _ => .inr hh, fun _ => rfl⟩
  | stores | calls | returns => exact halted_iff_of_same rfl id
  | readsPort d p u hu => exact halted_iff_of_same (State.portRead_keeps hu).2 id
  | readBlocks d p u hu => exact halted_iff_of_same (State.portRead_keeps hu).2 id
  | writesPort p src u hu => exact halted_iff_of_same (State.portWrite_keeps hu).2 id
  | writeBlocks p src u hu => exact halted_iff_of_same (State.portWrite_keeps hu).2 id

/-- A core that is not stopped is not halted. -/
theorem State.halted_of_running {s : State} (hs : s.stopped = false) : s.halted = false :=
  (Bool.or_eq_false_iff.mp hs).1

/-- Settles O39: the fetches leave HALTED as it is until one is out of range, and then the instruction decides. -/
theorem stepHaltsExactlyOnTheHaltConditions : Obligations.StepHaltsExactlyOnTheHaltConditions := by
  intro s t hs h
  rcases step_cases h with ⟨hstopped, -⟩ | ⟨-, i, rest, hdecode, hexec⟩ | ⟨-, hdecode, rfl⟩
  · rw [hs] at hstopped
    cases hstopped
  · rw [(exec_does hexec).halted_iff, State.advance_halted, State.halted_of_running hs, hdecode]
    simp
  · obtain ⟨hhalted, -⟩ := (s.advance s.fetchWindow.length).fetchOutOfRange_does
    exact ⟨fun _ => .inl hdecode, fun _ => hhalted⟩

/-! ## Ports, hooks and replies -/

/-- Settles O46: no way in which an instruction other than IN and OUT acts touches the ports or the hooks. -/
theorem onlyPortInstructionsReachPortsAndHooks : Obligations.OnlyPortInstructionsReachPortsAndHooks := by
  intro i s t h hin hout
  cases exec_does h with
  | writesReg | nothing | halts | stores | calls | returns => exact ⟨fun _ _ => rfl, ⟨rfl, rfl⟩, rfl⟩
  | readsPort d p => exact absurd rfl (hin d p)
  | readBlocks d p => exact absurd rfl (hin d p)
  | writesPort p src => exact absurd rfl (hout p src)
  | writeBlocks p src => exact absurd rfl (hout p src)

/-- `s` with other replies of the host to come. -/
def State.withReplies (s : State) (replies : List HostReply) : State := { s with hostScript := replies }

@[simp] theorem State.withReplies_cfg (s : State) (replies : List HostReply) :
    (s.withReplies replies).cfg = s.cfg := rfl
@[simp] theorem State.withReplies_stopped (s : State) (replies : List HostReply) :
    (s.withReplies replies).stopped = s.stopped := rfl
@[simp] theorem State.withReplies_fetchWindow (s : State) (replies : List HostReply) :
    (s.withReplies replies).fetchWindow = s.fetchWindow := rfl

theorem State.advance_withReplies (s : State) (replies : List HostReply) (n : Nat) :
    (s.withReplies replies).advance n = (s.advance n).withReplies replies := rfl

/-- A fetch out of range halts whatever replies are to come. -/
theorem State.fetchOutOfRange_withReplies (s : State) (replies : List HostReply) :
    (s.withReplies replies).fetchOutOfRange = s.fetchOutOfRange.withReplies replies := by
  unfold State.fetchOutOfRange
  rw [State.withReplies_cfg]
  cases s.cfg.oobFetchPc
  · rfl
  · rfl

/-- A jump does not depend on the replies to come. -/
theorem State.jumpIf_withReplies (s : State) (replies : List HostReply) (c : Bool) {w : Nat} (target : Word w) :
    (s.withReplies replies).jumpIf c target = (s.jumpIf c target).withReplies replies := by
  cases c
  · rfl
  · rfl

/-- Without a read hook a port read is the slot alone. -/
theorem State.portRead_noHook {s : State} (h : s.cfg.readHook = false) (n : Port) : s.portRead n = .returned s := by
  rw [State.portRead, h]
  rfl

/-- Without a write hook a port write is the slot alone. -/
theorem State.portWrite_noHook {s : State} (h : s.cfg.writeHook = false) (n : Port) {w : Nat} (v : Word w) :
    s.portWrite n v = .returned (s.setPort n v) := by
  rw [State.portWrite, h]
  rfl

/-- Without hooks no instruction depends on the replies to come, nor uses one. -/
theorem exec_withReplies {i : Instr} {s t : State} (hr : s.cfg.readHook = false) (hw : s.cfg.writeHook = false)
    (h : exec i s = .next t) (replies : List HostReply) :
    exec i (s.withReplies replies) = .next (t.withReplies replies) := by
  cases i with
  | ldx d x y =>
    simp only [exec, execLdx] at h ⊢
    split at h <;> cases h <;> rfl
  | inp d p =>
    have hr' : (s.withReplies replies).cfg.readHook = false := hr
    simp only [exec, execIn, State.portRead_noHook hr, State.portRead_noHook hr'] at h ⊢
    cases h
    rfl
  | out p src =>
    have hw' : (s.withReplies replies).cfg.writeHook = false := hw
    simp only [exec, execOut, State.portWrite_noHook hw, State.portWrite_noHook hw'] at h ⊢
    cases h
    rfl
  | jeq | jne | jlt | jgt => cases h; exact congrArg _ (s.jumpIf_withReplies replies _ _)
  | _ => cases h; rfl

/-- Settles O47: the fetch does not read the replies, and without hooks no instruction does. -/
theorem withoutHooksRepliesDoNotMatter : Obligations.WithoutHooksRepliesDoNotMatter := by
  intro s t replies hr hw h
  change step (s.withReplies replies) = .next (t.withReplies replies)
  have hstopped := s.withReplies_stopped replies
  rcases step_cases h with ⟨hs, rfl⟩ | ⟨hs, i, rest, hdecode, hexec⟩ | ⟨hs, hdecode, rfl⟩
  · rw [step, State.withReplies_stopped, hs]
    rfl
  · rw [step_of_running (hstopped.trans hs)]
    simp only [State.withReplies_cfg, State.withReplies_fetchWindow, hdecode, State.advance_withReplies]
    exact exec_withReplies (s := s.advance _) hr hw hexec replies
  · rw [step_of_running (hstopped.trans hs)]
    simp only [State.withReplies_cfg, State.withReplies_fetchWindow, hdecode]
    rw [State.advance_withReplies, State.fetchOutOfRange_withReplies]

/-! ## Reset and the registers -/

/-- Settles O50: reset is `init` of an empty store, and each value is the one `init` gives. -/
theorem resetIsInitOfAZeroStore : Obligations.ResetIsInitOfAZeroStore :=
  ⟨rfl, rfl, rfl, rfl, fun _ => rfl⟩

/-- Settles O52: the two halves of what a register write does. -/
theorem everyRegisterReadsBackWhatWasWritten : Obligations.EveryRegisterReadsBackWhatWasWritten := by
  intro s r q v
  obtain ⟨hread, hothers, -⟩ := s.setReg_word r v
  exact ⟨hread, fun hq => hothers q (by simpa using hq)⟩

end Machine

end Sys2Proof

end

section

/-! Proofs of the statements on the Program Store (20_memory.md): little-endian words, a byte stored and read back by a
load or by a fetch, the only instructions that change a byte, and the invariant. -/

namespace Sys2Proof

namespace Machine

/-! ## Little-endian words (20_memory.md R64, R65) -/

/-- Settles O23: n bytes fit the word, so that `MemRead` is their little-endian value. -/
theorem memReadIsLittleEndian : Obligations.MemReadIsLittleEndian := by
  intro s addr n _ hn
  exact s.mem.toNat_readLE s.cfg.memSize addr.toNat s.cfg.wordBits n (by omega)

/-- Settles O24: the bytes are those of `Memory.writeLE`, and the store is the one field that `MemWrite` updates. -/
theorem memWriteStoresTheLowBytes : Obligations.MemWriteStoresTheLowBytes := by
  intro s addr v n _ _
  refine ⟨fun k hk hlast => ?_, fun a ha => ?_, fun _ _ => rfl, fun _ _ => rfl, ⟨rfl, rfl, rfl⟩, rfl, rfl⟩
  · rw [State.memWrite_mem, Memory.read_writeLE _ _ _ _ _ _ hk hlast, extractByte_eq_byteOf]
  · rw [State.memWrite_mem, Memory.read_writeLE_other _ _ _ _ _ _ ha]

/-! ## A byte stored and read back (R71, R74) -/

/-- Byte 0 of a value is the value modulo 256 (R66). -/
theorem toNat_byteOf_zero (v : Nat) : (byteOf v 0).toNat = v % 256 := by
  simp [byteOf]

/-- The register a load writes holds the byte at the wrapped address (43_memory_port.md R181). -/
theorem State.x_load (s : State) (d : Reg) (addr : Word s.cfg.wordBits) :
    (s.setReg d (s.memRead addr 1)).x d = (s.mem.read (s.dataAddress addr)).toNat := by
  obtain ⟨hvalue, -⟩ := s.setReg_word d (s.memRead addr 1)
  exact hvalue.trans (Memory.toNat_readLE_one _ _ _ _ s.cfg.eight_le)

/-- Settles O21: both addresses wrap to the cell that the store wrote. -/
theorem storeThenLoadReturnsTheByte : Obligations.StoreThenLoadReturnsTheByte := by
  intro a src d a' s t hst haddr
  cases hst
  refine ⟨_, rfl, ?_⟩
  have hcell : (s.memWrite (s.reg a) 1 (s.reg src)).dataAddress ((s.memWrite (s.reg a) 1 (s.reg src)).reg a')
      = s.dataAddress (s.reg a) := haddr
  rw [State.x_load, hcell, State.memWrite_one, if_pos rfl, toNat_byteOf_zero, State.toNat_reg]

/-- Where pc is inside the store, the window begins with the byte at pc (40_fetch_decode.md R121). -/
theorem State.fetchWindow_cons {s : State} (hpc : s.x pcReg < s.cfg.memSize) :
    ∃ rest, s.fetchWindow = s.mem.read (s.x pcReg) :: rest :=
  ⟨_, if_neg (Nat.not_le.mpr hpc)⟩

/-- Settles O22: the store leaves pc, and the window begins with the byte at pc. -/
theorem storeIsSeenByTheNextFetch : Obligations.StoreIsSeenByTheNextFetch := by
  intro a src s t hst hpc haddr
  cases hst
  obtain ⟨rest, hwindow⟩ := State.fetchWindow_cons (s := s.memWrite (s.reg a) 1 (s.reg src)) hpc
  refine ⟨rest, ?_⟩
  rw [hwindow, State.memWrite_one, State.memWrite_x, if_pos haddr.symm, State.toNat_reg]

/-! ## What can change the store -/

/-- A port read leaves the store (60_exceptions.md R225). -/
theorem State.portRead_mem {s : State} {n : Port} {e : HookEnd} (he : s.portRead n = e) : e.state.mem = s.mem := by
  subst he
  rcases s.portRead_cases n with ⟨-, h⟩ | ⟨-, -, h⟩ | ⟨v, -, -, h⟩ | ⟨-, -, h⟩ | ⟨v, -, -, h⟩
  all_goals simp [h]

/-- A port write leaves the store (R226). -/
theorem State.portWrite_mem {s : State} {n : Port} {w : Nat} {v : Word w} {e : HookEnd}
    (he : s.portWrite n v = e) : e.state.mem = s.mem := by
  subst he
  rcases s.portWrite_cases n v with ⟨-, h⟩ | ⟨-, -, h⟩ | ⟨-, -, h⟩
  all_goals simp [h]

/-- A fetch out of range leaves the store (40_fetch_decode.md R122). -/
@[simp] theorem State.fetchOutOfRange_mem (s : State) : s.fetchOutOfRange.mem = s.mem := by
  unfold State.fetchOutOfRange
  cases s.cfg.oobFetchPc
  · rfl
  · rfl

/-- The store after an instruction: a store instruction has written one byte, a call has pushed pc, and any other
instruction has left it. -/
theorem Does.mem_cases {s t : State} {i : Instr} (h : Does s i t) :
    t.mem = s.mem ∨
    (∃ a src, i = .st a src ∧ t.mem = s.mem.writeLE s.cfg.memSize (s.reg a).toNat (s.reg src) 1) ∨
    (∃ r, i = .call r ∧ t.mem = s.mem.writeLE s.cfg.memSize s.pushedSp.toNat s.pc s.cfg.stackBytes) := by
  cases h with
  | writesReg | nothing | halts | returns => exact .inl rfl
  | stores a src => exact .inr (.inl ⟨a, src, rfl, rfl⟩)
  | calls r => exact .inr (.inr ⟨r, rfl, rfl⟩)
  | readsPort d p u hu => exact .inl (State.portRead_mem hu)
  | readBlocks d p u hu => exact .inl (State.portRead_mem hu)
  | writesPort p src u hu => exact .inl (State.portWrite_mem hu)
  | writeBlocks p src u hu => exact .inl (State.portWrite_mem hu)

/-- A byte that a little-endian write changed is one of those it wrote. -/
theorem Memory.written_of_read_writeLE_ne {m : Memory} {size addr w n a : Nat} {v : Word w}
    (h : (m.writeLE size addr v n).read a ≠ m.read a) : ∃ k, k < n ∧ a = (addr + k) % size := by
  by_contra hnone
  push Not at hnone
  exact h (Memory.read_writeLE_other m size addr v n a hnone)

/-- Settles O45: the byte changed is one that the store instruction or the call wrote. -/
theorem onlyStoreAndCallChangeMemory : Obligations.OnlyStoreAndCallChangeMemory := by
  intro i s t k h hne
  rcases (exec_does h).mem_cases with hsame | ⟨a, src, rfl, hmem⟩ | ⟨r, rfl, hmem⟩
  · rw [hsame] at hne
    exact absurd rfl hne
  · rw [hmem] at hne
    obtain ⟨j, hj, rfl⟩ := Memory.written_of_read_writeLE_ne hne
    obtain rfl : j = 0 := by omega
    exact .inl ⟨a, src, rfl, rfl⟩
  · rw [hmem] at hne
    exact .inr ⟨r, rfl, Memory.written_of_read_writeLE_ne hne⟩

/-! ## The invariant (20_memory.md R60, 60_exceptions.md R228) -/

/-- An instruction keeps the store in canonical form and inside MEM_SIZE: each address it writes to is wrapped (R61). -/
theorem Does.keeps_store {s t : State} {i : Instr} (h : Does s i t) (hwf : s.mem.wf)
    (hwithin : s.mem.within s.cfg.memSize) : t.mem.wf ∧ t.mem.within s.cfg.memSize := by
  rcases h.mem_cases with hmem | ⟨_, _, -, hmem⟩ | ⟨_, -, hmem⟩
  · rw [hmem]
    exact ⟨hwf, hwithin⟩
  all_goals
    rw [hmem]
    exact ⟨Memory.wf_writeLE hwf _ _ _ _, Memory.within_writeLE hwithin s.cfg.memSize_pos _ _ _⟩

/-- From `s` to `t` the core has called the installed hook `c` and stands in it; HALTED is as it was (R228). -/
def WentIntoHook (c : HookCall) (s t : State) : Prop :=
  t.blockedIn = some c ∧ t.halted = s.halted ∧ t.signals = c :: s.signals ∧ c.installed s.cfg = true

/-- A port read stays out of a hook, or goes into the read hook, which is installed (R225, R228). -/
theorem State.portRead_hook_cases {s : State} {n : Port} {e : HookEnd} (he : s.portRead n = e) :
    e.state.blockedIn = s.blockedIn ∨ WentIntoHook (.aboutToRead n) s e.state := by
  subst he
  rcases s.portRead_cases n with ⟨-, h⟩ | ⟨-, -, h⟩ | ⟨v, -, -, h⟩ | ⟨hhook, -, h⟩ | ⟨v, hhook, -, h⟩
  · simp [h]
  · simp [h]
  · simp [h]
  · rw [h]
    exact .inr ⟨rfl, rfl, rfl, hhook⟩
  · rw [h]
    exact .inr ⟨rfl, rfl, rfl, hhook⟩

/-- A port write stays out of a hook, or goes into the write hook, which is installed (R226, R228). -/
theorem State.portWrite_hook_cases {s : State} {n : Port} {w : Nat} {v : Word w} {e : HookEnd}
    (he : s.portWrite n v = e) :
    e.state.blockedIn = s.blockedIn ∨ WentIntoHook (.wasWritten n) s e.state := by
  subst he
  rcases s.portWrite_cases n v with ⟨-, h⟩ | ⟨-, -, h⟩ | ⟨hhook, -, h⟩
  · simp [h]
  · simp [h]
  · rw [h]
    exact .inr ⟨rfl, rfl, rfl, hhook⟩

/-- An instruction leaves `blockedIn` as it was or goes into an installed hook. -/
theorem Does.hook_cases {s t : State} {i : Instr} (h : Does s i t) :
    t.blockedIn = s.blockedIn ∨ ∃ c, WentIntoHook c s t := by
  cases h with
  | writesReg | nothing | halts | stores | calls | returns => exact .inl rfl
  | readsPort d p u hu => exact (State.portRead_hook_cases hu).imp_right fun hc => ⟨_, hc⟩
  | readBlocks d p u hu => exact (State.portRead_hook_cases hu).imp_right fun hc => ⟨_, hc⟩
  | writesPort p src u hu => exact (State.portWrite_hook_cases hu).imp_right fun hc => ⟨_, hc⟩
  | writeBlocks p src u hu => exact (State.portWrite_hook_cases hu).imp_right fun hc => ⟨_, hc⟩

/-- A core that is not stopped is in no hook. -/
theorem State.blockedIn_of_running {s : State} (hs : s.stopped = false) : s.blockedIn = none := by
  simpa using (Bool.or_eq_false_iff.mp hs).2

/-- Outside a hook the invariant speaks of the store alone. -/
theorem State.inv_iff_of_blockedIn_eq_none {s : State} (h : s.blockedIn = none) :
    s.Inv ↔ s.mem.wf ∧ s.mem.within s.cfg.memSize := by
  simp [State.Inv, h]

/-- An instruction run by a core that is not stopped keeps the invariant. -/
theorem Does.keeps_inv {s t : State} {i : Instr} (h : Does s i t) (hs : s.stopped = false) (hinv : s.Inv) : t.Inv := by
  obtain ⟨hwf, hwithin, -⟩ := hinv
  obtain ⟨hwf', hwithin'⟩ := h.keeps_store hwf hwithin
  refine ⟨hwf', h.cfg ▸ hwithin', fun c hc => ?_⟩
  rcases h.hook_cases with hnone | ⟨c', hblocked, hhalted, hsignals, hinstalled⟩
  · rw [hnone, State.blockedIn_of_running hs] at hc
    cases hc
  · obtain rfl : c' = c := Option.some.inj (hblocked.symm.trans hc)
    refine ⟨hhalted.trans (State.halted_of_running hs), ?_, h.cfg ▸ hinstalled⟩
    rw [hsignals, List.head?_cons]

/-- A fetch out of range in a core that is not stopped keeps the invariant. -/
theorem State.fetchOutOfRange_keeps_inv {s : State} (hs : s.stopped = false) (hinv : s.Inv) :
    s.fetchOutOfRange.Inv := by
  obtain ⟨hwf, hwithin, -⟩ := hinv
  obtain ⟨-, -, -, -, -, -, hcfg, hblocked⟩ := s.fetchOutOfRange_does
  rw [State.inv_iff_of_blockedIn_eq_none (hblocked.trans (State.blockedIn_of_running hs)), State.fetchOutOfRange_mem,
    hcfg]
  exact ⟨hwf, hwithin⟩

/-- Settles O42: the invariant does not speak of pc, which the fetches move; then the instruction or the fetch out of
range keeps it. -/
theorem everyStepKeepsTheInvariant : Obligations.EveryStepKeepsTheInvariant := by
  intro s t hinv h
  rcases step_cases h with ⟨-, rfl⟩ | ⟨hs, i, rest, -, hexec⟩ | ⟨hs, -, rfl⟩
  · exact hinv
  · exact (exec_does hexec).keeps_inv hs hinv
  · exact State.fetchOutOfRange_keeps_inv (s := s.advance _) hs hinv

end Machine

end Sys2Proof

end

section

/-! Proofs of the statements on the encoding (30_encoding.md): decoding an encoding, the bytes each instruction is read
from, the opcode table, the length given by the first two bytes, the hex digits, and the sample words. -/

namespace Sys2Proof

/-! ## Decoding an encoding (R94, R99-R101) -/

section Operands

variable (rest : List Byte)

theorem takeReg1_regByte (f : Reg → Instr) (r : Reg) : takeReg1 f (regByte r :: rest) = .ok (f r, rest) := by
  rw [takeReg1, regOf_regByte]

theorem takeReg2_regByte (f : Reg → Reg → Instr) (q r : Reg) :
    takeReg2 f (regByte q :: regByte r :: rest) = .ok (f q r, rest) := by
  rw [takeReg2, regOf_regByte, regOf_regByte]

theorem takeReg3_regByte (f : Reg → Reg → Reg → Instr) (p q r : Reg) :
    takeReg3 f (regByte p :: regByte q :: regByte r :: rest) = .ok (f p q r, rest) := by
  rw [takeReg3, regOf_regByte, regOf_regByte, regOf_regByte]

theorem takeRegByte_regByte (f : Reg → Byte → Instr) (d : Reg) (v : Byte) :
    takeRegByte f (regByte d :: v :: rest) = .ok (f d v, rest) := by
  rw [takeRegByte, regOf_regByte]

theorem takeRegByteByte_regByte (f : Reg → Byte → Byte → Instr) (d : Reg) (x y : Byte) :
    takeRegByteByte f (regByte d :: x :: y :: rest) = .ok (f d x y, rest) := by
  rw [takeRegByteByte, regOf_regByte]

end Operands

/-- Settles O1, by the format of each instruction: the bytes before the operands choose its row of the map, and the
operand bytes name its registers. Well-formedness says what the rows of MOD and of the fall-backs need. -/
theorem decodeOfEncodeIsTheInstruction : Obligations.DecodeOfEncodeIsTheInstruction := by
  intro hasMod i rest hwf
  cases i with
  | jmp r | call r => exact takeReg1_regByte rest _ r
  | not q r | ld q r | st q r | inp q r | out q r | mov q r => exact takeReg2_regByte rest _ q r
  | add p q r | sub p q r | mul p q r | div p q r | and p q r | or p q r | xor p q r | shl p q r | shr p q r
  | jeq p q r | jne p q r | jlt p q r | jgt p q r => exact takeReg3_regByte rest _ p q r
  | mod p q r =>
    obtain rfl : hasMod = true := hwf
    exact takeReg3_regByte rest _ p q r
  | ldb d v => exact takeRegByte_regByte rest _ d v
  | ldx d x y => exact takeRegByteByte_regByte rest _ d x y
  | haltBadMode m => exact decodeColon_bad rest hwf
  | haltBadCmp c => exact decodeQuestion_bad rest hwf
  | haltUnknown o => exact decode_unknown hwf rest
  | ret | halt | skipSpace | skipTab | skipNewline | skipVerticalTab | skipFormFeed | skipCarriageReturn => rfl

/-- Settles O7: each word decodes by evaluation. -/
theorem sampleWordsDecodeAsTheSpecSays : Obligations.SampleWordsDecodeAsTheSpecSays :=
  ⟨rfl, rfl, rfl, rfl, rfl, rfl, rfl, rfl, rfl⟩

/-! ## Hex digits (R98) -/

namespace Machine

/-- The ranges of `hexval` in unsigned arithmetic. -/
theorem hexval_eq (c : Byte) : hexval c =
    if 0x30 ≤ c.toNat ∧ c.toNat ≤ 0x39 then some (c.toNat - 0x30)
    else if 0x41 ≤ c.toNat ∧ c.toNat ≤ 0x46 then some (c.toNat - 0x41 + 10)
    else if 0x61 ≤ c.toNat ∧ c.toNat ≤ 0x66 then some (c.toNat - 0x61 + 10)
    else none := rfl

/-- LDX with a byte that is no digit, in either position, halts (42_load_immediate.md R172). -/
theorem exec_ldx_of_bad_digit {h l : Byte} (hbad : hexval h = none ∨ hexval l = none) (d : Reg) (s : State) :
    ∃ t, exec (.ldx d h l) s = .next t ∧ HaltsOnly s t := by
  refine ⟨s.halt, ?_, s.halt_haltsOnly⟩
  simp only [exec, execLdx, hexOperand_none.mpr hbad]

/-- Settles O5: the three ranges exclude one another, and a byte in none of them halts LDX. -/
theorem hexDigitValues : Obligations.HexDigitValues := by
  intro c
  rw [hexval_eq]
  refine ⟨fun hlo hhi => if_pos ⟨hlo, hhi⟩, fun hlo hhi => ?_, fun hlo hhi => ?_, fun hdigit hupper hlower => ?_,
    fun hc d o s => ⟨exec_ldx_of_bad_digit (.inl hc) d s, exec_ldx_of_bad_digit (.inr hc) d s⟩⟩
  · rw [if_neg (by omega), if_pos ⟨hlo, hhi⟩]
  · rw [if_neg (by omega), if_neg (by omega), if_pos ⟨hlo, hhi⟩]
  · rw [if_neg hdigit, if_neg hupper, if_neg hlower]

end Machine

/-! ## The bytes each instruction is read from -/

/-- `bs` is the bytes of the instruction, with any byte for the register that it names, and then `rest`
(30_encoding.md R94, R99-R101). All that the decoder answers is read so (`reads_of_decode`). -/
inductive Reads (hasMod : Bool) : List Byte → Instr → List Byte → Prop
  | add (p q r rest) : Reads hasMod (0x2B :: p :: q :: r :: rest) (.add (regOf p) (regOf q) (regOf r)) rest
  | sub (p q r rest) : Reads hasMod (0x2D :: p :: q :: r :: rest) (.sub (regOf p) (regOf q) (regOf r)) rest
  | mul (p q r rest) : Reads hasMod (0x2A :: p :: q :: r :: rest) (.mul (regOf p) (regOf q) (regOf r)) rest
  | div (p q r rest) : Reads hasMod (0x2F :: p :: q :: r :: rest) (.div (regOf p) (regOf q) (regOf r)) rest
  | mod (h : hasMod = true) (p q r rest) :
    Reads hasMod (0x25 :: p :: q :: r :: rest) (.mod (regOf p) (regOf q) (regOf r)) rest
  | and (p q r rest) : Reads hasMod (0x26 :: p :: q :: r :: rest) (.and (regOf p) (regOf q) (regOf r)) rest
  | or (p q r rest) : Reads hasMod (0x7C :: p :: q :: r :: rest) (.or (regOf p) (regOf q) (regOf r)) rest
  | xor (p q r rest) : Reads hasMod (0x5E :: p :: q :: r :: rest) (.xor (regOf p) (regOf q) (regOf r)) rest
  | shl (p q r rest) : Reads hasMod (0x3C :: p :: q :: r :: rest) (.shl (regOf p) (regOf q) (regOf r)) rest
  | shr (p q r rest) : Reads hasMod (0x3E :: p :: q :: r :: rest) (.shr (regOf p) (regOf q) (regOf r)) rest
  | not (q r rest) : Reads hasMod (0x7E :: q :: r :: rest) (.not (regOf q) (regOf r)) rest
  | ldb (d v rest) : Reads hasMod (0x3A :: 0x27 :: d :: v :: rest) (.ldb (regOf d) v) rest
  | ldx (d x y rest) : Reads hasMod (0x3A :: 0x23 :: d :: x :: y :: rest) (.ldx (regOf d) x y) rest
  | mov (q r rest) : Reads hasMod (0x3A :: 0x3D :: q :: r :: rest) (.mov (regOf q) (regOf r)) rest
  | haltBadMode {m} (h : isBadMode m = true) (rest) : Reads hasMod (0x3A :: m :: rest) (.haltBadMode m) rest
  | ld (q r rest) : Reads hasMod (0x40 :: q :: r :: rest) (.ld (regOf q) (regOf r)) rest
  | st (q r rest) : Reads hasMod (0x21 :: q :: r :: rest) (.st (regOf q) (regOf r)) rest
  | inp (q r rest) : Reads hasMod (0x7B :: q :: r :: rest) (.inp (regOf q) (regOf r)) rest
  | out (q r rest) : Reads hasMod (0x7D :: q :: r :: rest) (.out (regOf q) (regOf r)) rest
  | jmp (r rest) : Reads hasMod (0x2E :: r :: rest) (.jmp (regOf r)) rest
  | jeq (p q r rest) : Reads hasMod (0x3F :: 0x3D :: p :: q :: r :: rest) (.jeq (regOf p) (regOf q) (regOf r)) rest
  | jne (p q r rest) : Reads hasMod (0x3F :: 0x21 :: p :: q :: r :: rest) (.jne (regOf p) (regOf q) (regOf r)) rest
  | jlt (p q r rest) : Reads hasMod (0x3F :: 0x3C :: p :: q :: r :: rest) (.jlt (regOf p) (regOf q) (regOf r)) rest
  | jgt (p q r rest) : Reads hasMod (0x3F :: 0x3E :: p :: q :: r :: rest) (.jgt (regOf p) (regOf q) (regOf r)) rest
  | haltBadCmp {c} (h : isBadCmp c = true) (rest) : Reads hasMod (0x3F :: c :: rest) (.haltBadCmp c) rest
  | call (r rest) : Reads hasMod (0x3B :: r :: rest) (.call (regOf r)) rest
  | ret (rest) : Reads hasMod (0x2C :: rest) .ret rest
  | halt (rest) : Reads hasMod (0x00 :: rest) .halt rest
  | skipSpace (rest) : Reads hasMod (0x20 :: rest) .skipSpace rest
  | skipTab (rest) : Reads hasMod (0x09 :: rest) .skipTab rest
  | skipNewline (rest) : Reads hasMod (0x0A :: rest) .skipNewline rest
  | skipVerticalTab (rest) : Reads hasMod (0x0B :: rest) .skipVerticalTab rest
  | skipFormFeed (rest) : Reads hasMod (0x0C :: rest) .skipFormFeed rest
  | skipCarriageReturn (rest) : Reads hasMod (0x0D :: rest) .skipCarriageReturn rest
  | haltUnknown {o} (h : isUnknownOpcode hasMod o = true) (rest) : Reads hasMod (o :: rest) (.haltUnknown o) rest

section Reads

variable {hasMod : Bool} {bs rest : List Byte} {i : Instr}

/-! What a format takes after the bytes `key`, the opcode and the selector, is read as an instruction of that format. -/

theorem Reads.of_ok (key : List Byte) {j : Instr} (hread : ∀ rest, Reads hasMod (key ++ rest) j rest)
    (h : (.ok (j, bs) : Decoded) = .ok (i, rest)) : Reads hasMod (key ++ bs) i rest := by
  cases h
  exact hread bs

theorem Reads.of_takeReg1 (key : List Byte) {f : Reg → Instr}
    (hread : ∀ r rest, Reads hasMod (key ++ r :: rest) (f (regOf r)) rest)
    (h : takeReg1 f bs = .ok (i, rest)) : Reads hasMod (key ++ bs) i rest := by
  obtain ⟨r, rfl, rfl⟩ := takeReg1_ok.mp h
  exact hread r rest

theorem Reads.of_takeReg2 (key : List Byte) {f : Reg → Reg → Instr}
    (hread : ∀ q r rest, Reads hasMod (key ++ q :: r :: rest) (f (regOf q) (regOf r)) rest)
    (h : takeReg2 f bs = .ok (i, rest)) : Reads hasMod (key ++ bs) i rest := by
  obtain ⟨q, r, rfl, rfl⟩ := takeReg2_ok.mp h
  exact hread q r rest

theorem Reads.of_takeReg3 (key : List Byte) {f : Reg → Reg → Reg → Instr}
    (hread : ∀ p q r rest, Reads hasMod (key ++ p :: q :: r :: rest) (f (regOf p) (regOf q) (regOf r)) rest)
    (h : takeReg3 f bs = .ok (i, rest)) : Reads hasMod (key ++ bs) i rest := by
  obtain ⟨p, q, r, rfl, rfl⟩ := takeReg3_ok.mp h
  exact hread p q r rest

theorem Reads.of_takeRegByte (key : List Byte) {f : Reg → Byte → Instr}
    (hread : ∀ d v rest, Reads hasMod (key ++ d :: v :: rest) (f (regOf d) v) rest)
    (h : takeRegByte f bs = .ok (i, rest)) : Reads hasMod (key ++ bs) i rest := by
  obtain ⟨d, v, rfl, rfl⟩ := takeRegByte_ok.mp h
  exact hread d v rest

theorem Reads.of_takeRegByteByte (key : List Byte) {f : Reg → Byte → Byte → Instr}
    (hread : ∀ d x y rest, Reads hasMod (key ++ d :: x :: y :: rest) (f (regOf d) x y) rest)
    (h : takeRegByteByte f bs = .ok (i, rest)) : Reads hasMod (key ++ bs) i rest := by
  obtain ⟨d, x, y, rfl, rfl⟩ := takeRegByteByte_ok.mp h
  exact hread d x y rest

theorem reads_of_decodeColon (h : decodeColon bs = .ok (i, rest)) : Reads hasMod (0x3A :: bs) i rest := by
  cases bs with
  | nil => cases h
  | cons m bs =>
    rcases colonByte_cases m with rfl | rfl | rfl | hm
    · exact .of_takeRegByte [0x3A, 0x27] .ldb h
    · exact .of_takeRegByteByte [0x3A, 0x23] .ldx h
    · exact .of_takeReg2 [0x3A, 0x3D] .mov h
    · exact .of_ok [0x3A, m] (.haltBadMode hm) ((decodeColon_bad bs hm).symm.trans h)

theorem reads_of_decodeQuestion (h : decodeQuestion bs = .ok (i, rest)) : Reads hasMod (0x3F :: bs) i rest := by
  cases bs with
  | nil => cases h
  | cons c bs =>
    rcases questionByte_cases c with rfl | rfl | rfl | rfl | hc
    · exact .of_takeReg3 [0x3F, 0x3D] .jeq h
    · exact .of_takeReg3 [0x3F, 0x21] .jne h
    · exact .of_takeReg3 [0x3F, 0x3C] .jlt h
    · exact .of_takeReg3 [0x3F, 0x3E] .jgt h
    · exact .of_ok [0x3F, c] (.haltBadCmp hc) ((decodeQuestion_bad bs hc).symm.trans h)

/-- What the decoder answers is read from the bytes by the row of its first byte. -/
theorem reads_of_decode (h : decode hasMod bs = .ok (i, rest)) : Reads hasMod bs i rest := by
  cases bs with
  | nil => cases h
  | cons op bs =>
    rcases firstByte_cases hasMod op with rfl | rfl | rfl | rfl | rfl | rfl | rfl | rfl | rfl | rfl | rfl | rfl | rfl |
      rfl | rfl | rfl | rfl | rfl | rfl | rfl | rfl | rfl | rfl | rfl | rfl | rfl | ⟨rfl, rfl⟩ | hop
    · exact .of_ok [0x00] .halt h
    · exact .of_ok [0x09] .skipTab h
    · exact .of_ok [0x0A] .skipNewline h
    · exact .of_ok [0x0B] .skipVerticalTab h
    · exact .of_ok [0x0C] .skipFormFeed h
    · exact .of_ok [0x0D] .skipCarriageReturn h
    · exact .of_ok [0x20] .skipSpace h
    · exact .of_takeReg2 [0x21] .st h
    · exact .of_takeReg3 [0x26] .and h
    · exact .of_takeReg3 [0x2A] .mul h
    · exact .of_takeReg3 [0x2B] .add h
    · exact .of_ok [0x2C] .ret h
    · exact .of_takeReg3 [0x2D] .sub h
    · exact .of_takeReg1 [0x2E] .jmp h
    · exact .of_takeReg3 [0x2F] .div h
    · exact reads_of_decodeColon h
    · exact .of_takeReg1 [0x3B] .call h
    · exact .of_takeReg3 [0x3C] .shl h
    · exact .of_takeReg3 [0x3E] .shr h
    · exact reads_of_decodeQuestion h
    · exact .of_takeReg2 [0x40] .ld h
    · exact .of_takeReg3 [0x5E] .xor h
    · exact .of_takeReg2 [0x7B] .inp h
    · exact .of_takeReg3 [0x7C] .or h
    · exact .of_takeReg2 [0x7D] .out h
    · exact .of_takeReg2 [0x7E] .not h
    · exact .of_takeReg3 [0x25] (.mod rfl) h
    · exact .of_ok [op] (.haltUnknown hop) ((decode_unknown hop bs).symm.trans h)

/-! ## Encoding what was decoded (R96) -/

theorem Reads.wf (h : Reads hasMod bs i rest) : i.wf hasMod = true := by
  cases h with
  | mod h | haltBadMode h | haltBadCmp h | haltUnknown h => exact h
  | _ => rfl

theorem Reads.drop_length (h : Reads hasMod bs i rest) : bs.drop i.length = rest := by
  cases h <;> rfl

/-- The byte `e` is `b`, or `b` with the bit cleared that a register byte ignores (10_state.md R31). -/
abbrev SameUpToBit7 (e b : Byte) : Prop := e = b ∨ e = b &&& 0x7F

theorem sameUpToBit7_cons {b : Byte} {es bs : List Byte} (h : List.Forall₂ SameUpToBit7 es bs) :
    List.Forall₂ SameUpToBit7 (b :: es) (b :: bs) :=
  .cons (.inl rfl) h

theorem sameUpToBit7_cons_regByte {b : Byte} {es bs : List Byte} (h : List.Forall₂ SameUpToBit7 es bs) :
    List.Forall₂ SameUpToBit7 (regByte (regOf b) :: es) (b :: bs) :=
  .cons (.inr (regByte_regOf b)) h

/-- The encoding is the bytes read, byte by byte along each format: its register bytes up to bit 7, the others whole. -/
theorem Reads.encode_sameUpToBit7 (h : Reads hasMod bs i rest) :
    List.Forall₂ SameUpToBit7 (encode i) (bs.take i.length) := by
  have whole {b : Byte} {es bs : List Byte} := @sameUpToBit7_cons b es bs
  have reg {b : Byte} {es bs : List Byte} := @sameUpToBit7_cons_regByte b es bs
  cases h with
  | ret | halt | skipSpace | skipTab | skipNewline | skipVerticalTab | skipFormFeed | skipCarriageReturn
  | haltUnknown => exact whole .nil
  | jmp | call => exact whole <| reg .nil
  | not | ld | st | inp | out => exact whole <| reg <| reg .nil
  | add | sub | mul | div | mod | and | or | xor | shl | shr => exact whole <| reg <| reg <| reg .nil
  | haltBadMode | haltBadCmp => exact whole <| whole .nil
  | mov => exact whole <| whole <| reg <| reg .nil
  | ldb => exact whole <| whole <| reg <| whole .nil
  | ldx => exact whole <| whole <| reg <| whole <| whole .nil
  | jeq | jne | jlt | jgt => exact whole <| whole <| reg <| reg <| reg .nil

/-- Settles O2, from the bytes that the instruction was read from. -/
theorem decodedBytesAreTheEncodingUpToIgnoredBits : Obligations.DecodedBytesAreTheEncodingUpToIgnoredBits := by
  intro hasMod bs rest i h
  have hreads := reads_of_decode h
  exact ⟨hreads.wf, decode_length h, hreads.drop_length, hreads.encode_sameUpToBit7⟩

/-! ## The opcode table (R102)

The fall-back rows answer for the strings that begin with the key of no other row. -/

/-- The rows of the table but for the fall-back rows. -/
def specificRows (hasMod : Bool) : List TableRow :=
  (if hasMod then [rowOn1 "MOD" 0x25] else []) ++ tableRows1 ++ tableRowsSkip ++ tableRows2

/-- A key of those rows: a known first byte that opens no group, or a group byte and a selector of its group. -/
def isSpecificKey (hasMod : Bool) : List Byte → Bool
  | [b] => !isUnknownOpcode hasMod b && !isGroupByte b
  | [b, c] => b == 0x3A && !isBadMode c || b == 0x3F && !isBadCmp c
  | _ => false

theorem isSpecificKey_cases {k : List Byte} (h : isSpecificKey hasMod k = true) :
    (∃ b, k = [b] ∧ isUnknownOpcode hasMod b = false ∧ isGroupByte b = false) ∨
    (∃ m, k = [0x3A, m] ∧ isBadMode m = false) ∨ (∃ c, k = [0x3F, c] ∧ isBadCmp c = false) := by
  rcases k with _ | ⟨b, _ | ⟨c, _ | ⟨_, _⟩⟩⟩
  · cases h
  · exact .inl ⟨b, rfl, by simpa [isSpecificKey] using h⟩
  · exact .inr (by simpa [isSpecificKey] using h)
  · cases h

/-- Each specific row has such a key and compares it under full masks. -/
theorem key_of_mem_specificRows (hasMod : Bool) : ∀ row ∈ specificRows hasMod,
    isSpecificKey hasMod (row.key.map Prod.fst) = true ∧ row.key = (row.key.map Prod.fst).map (·, 0xFF) := by
  cases hasMod <;> decide

/-- Under a full mask a byte is compared whole. -/
theorem keyHits_cons_whole (m b : Byte) (key : List (Byte × Byte)) (bs : List Byte) :
    keyHits ((m, 0xFF) :: key) (b :: bs) = (b == m && keyHits key bs) := by
  have hmask : b &&& 0xFF = b := BitVec.and_allOnes
  rw [keyHits, hmask]

/-- Under the mask 0 a byte is not compared. -/
theorem keyHits_cons_any (b : Byte) (key : List (Byte × Byte)) (bs : List Byte) :
    keyHits ((0x00, 0x00) :: key) (b :: bs) = keyHits key bs := by
  have hmask : b &&& 0x00 = 0x00 := BitVec.and_zero
  rw [keyHits, hmask, beq_self_eq_true, Bool.true_and]

/-- A string that a key under full masks hits begins with that key. -/
theorem isPrefix_of_keyHits {k bs : List Byte} (h : keyHits (k.map (·, 0xFF)) bs = true) : k <+: bs := by
  induction k generalizing bs with
  | nil => exact List.nil_prefix
  | cons m k ih =>
    cases bs with
    | nil => cases h
    | cons b bs =>
      rw [List.map_cons, keyHits_cons_whole, Bool.and_eq_true, beq_iff_eq] at h
      obtain ⟨rfl, hk⟩ := h
      exact List.cons_prefix_cons.mpr ⟨rfl, ih hk⟩

theorem bestRow_append_of_no_hit {rows : List TableRow} (more : List TableRow)
    (h : ∀ row ∈ rows, keyHits row.key bs ≠ true) : bestRow bs (rows ++ more) = bestRow bs more := by
  induction rows with
  | nil => rfl
  | cons row rows ih =>
    obtain ⟨hrow, hrows⟩ := List.forall_mem_cons.mp h
    rw [List.cons_append, bestRow, if_neg hrow, ih hrows]

theorem tableRowOf_eq_fallback (h : ∀ k, isSpecificKey hasMod k = true → ¬k <+: bs) :
    tableRowOf hasMod bs = bestRow bs tableRowsFallback := by
  refine bestRow_append_of_no_hit (rows := specificRows hasMod) _ fun row hrow hhits => ?_
  obtain ⟨hkey, hwhole⟩ := key_of_mem_specificRows hasMod row hrow
  rw [hwhole] at hhits
  exact h _ hkey (isPrefix_of_keyHits hhits)

theorem tableRowOf_badMode {m : Byte} (hm : isBadMode m = true) :
    (tableRowOf hasMod (0x3A :: m :: rest)).map (·.mnemonic) = some "HALT_BADMODE" := by
  rw [tableRowOf_eq_fallback fun k hk hbegins => ?_]
  · simp [bestRow, tableRowsFallback, keyHits]
  rcases isSpecificKey_cases hk with ⟨b, rfl, -, hgroup⟩ | ⟨m', rfl, hm'⟩ | ⟨c, rfl, -⟩
  · obtain rfl : b = 0x3A := by simpa using hbegins
    cases hgroup
  · obtain rfl : m' = m := by simpa using hbegins
    simp [hm'] at hm
  · simp at hbegins

theorem tableRowOf_badCmp {c : Byte} (hc : isBadCmp c = true) :
    (tableRowOf hasMod (0x3F :: c :: rest)).map (·.mnemonic) = some "HALT_BADCMP" := by
  rw [tableRowOf_eq_fallback fun k hk hbegins => ?_]
  · simp [bestRow, tableRowsFallback, keyHits]
  rcases isSpecificKey_cases hk with ⟨b, rfl, -, hgroup⟩ | ⟨m, rfl, -⟩ | ⟨c', rfl, hc'⟩
  · obtain rfl : b = 0x3F := by simpa using hbegins
    cases hgroup
  · simp at hbegins
  · obtain rfl : c' = c := by simpa using hbegins
    simp [hc'] at hc

/-- An unknown opcode byte is none of the first bytes that the map lists (40_fetch_decode.md R127). -/
theorem not_mem_of_isUnknownOpcode {op : Byte} (hop : isUnknownOpcode hasMod op = true) {known : List Byte}
    (hknown : ∀ b ∈ known, b ∈ knownFirstBytes) : op ∉ known := by
  intro hmem
  simp [isUnknownOpcode, hknown op hmem] at hop

theorem ne_of_isUnknownOpcode {op b : Byte} (hop : isUnknownOpcode hasMod op = true) (hb : b ∈ knownFirstBytes) :
    op ≠ b := by
  rintro rfl
  exact not_mem_of_isUnknownOpcode hop (fun _ h => h) hb

theorem tableRowOf_unknown {op : Byte} (hop : isUnknownOpcode hasMod op = true) :
    (tableRowOf hasMod (op :: rest)).map (·.mnemonic) = some "HALT_UNKNOWN" := by
  have hcolon : op ≠ 0x3A := ne_of_isUnknownOpcode hop (by decide)
  have hquestion : op ≠ 0x3F := ne_of_isUnknownOpcode hop (by decide)
  rw [tableRowOf_eq_fallback fun k hk hbegins => ?_]
  · simp only [tableRowsFallback, bestRow, keyHits_cons_whole, keyHits_cons_any, beq_eq_false_iff_ne.mpr hcolon,
      beq_eq_false_iff_ne.mpr hquestion, Bool.false_and]
    rfl
  rcases isSpecificKey_cases hk with ⟨b, rfl, hknown, -⟩ | ⟨m, rfl, -⟩ | ⟨c, rfl, -⟩
  · obtain rfl : b = op := by simpa using hbegins
    simp [hknown] at hop
  · exact hcolon (List.cons_prefix_cons.mp hbegins).1.symm
  · exact hquestion (List.cons_prefix_cons.mp hbegins).1.symm

/-- The bytes an instruction is read from have its row in the table. -/
theorem Reads.tableRow (h : Reads hasMod bs i rest) : (tableRowOf hasMod bs).map (·.mnemonic) = some i.mnemonic := by
  cases h with
  | haltBadMode h => exact tableRowOf_badMode h
  | haltBadCmp h => exact tableRowOf_badCmp h
  | haltUnknown h => exact tableRowOf_unknown h
  | mod h =>
    subst h
    rfl
  | _ => cases hasMod <;> rfl

/-- Settles O3: the row of lowest priority number is that of the instruction the bytes are read as. -/
theorem decodeFollowsTheOpcodeTable : Obligations.DecodeFollowsTheOpcodeTable :=
  fun _ _ _ _ h => (reads_of_decode h).tableRow

/-! ## The length table (R104) -/

open Sys2Proof.Claims

theorem lengthByFirstBytes_badMode {m : Byte} (hm : isBadMode m = true) : lengthByFirstBytes hasMod 0x3A m = 2 := by
  have hselector : m ∉ ([0x27, 0x23, 0x3D] : List Byte) := by simpa [isBadMode] using hm
  have hsub : ([0x27, 0x3D] : List Byte) ⊆ [0x27, 0x23, 0x3D] := by decide
  have h4 : m ∉ ([0x27, 0x3D] : List Byte) := fun hmem => hselector (hsub hmem)
  have h5 : m ≠ 0x23 := by
    rintro rfl
    exact hselector (by decide)
  exact (if_neg h4).trans (if_neg h5)

theorem lengthByFirstBytes_badCmp {c : Byte} (hc : isBadCmp c = true) : lengthByFirstBytes hasMod 0x3F c = 2 := by
  have hcomparison : c ∉ ([0x3D, 0x21, 0x3C, 0x3E] : List Byte) := by simpa [isBadCmp] using hc
  exact if_neg hcomparison

/-- An unknown byte is in no row of the length table but that of `%`, which it is where HAS_MOD is false
(93_implementation_defined.md I3). -/
theorem lengthByFirstBytes_unknown {op : Byte} (hop : isUnknownOpcode hasMod op = true) (b1 : Byte) :
    lengthByFirstBytes hasMod op b1 = 1 := by
  have hcolon : op ≠ 0x3A := ne_of_isUnknownOpcode hop (by decide)
  have hquestion : op ≠ 0x3F := ne_of_isUnknownOpcode hop (by decide)
  rw [lengthByFirstBytes, if_neg (not_mem_of_isUnknownOpcode hop (by decide)),
    if_neg (not_mem_of_isUnknownOpcode hop (by decide)), if_neg (not_mem_of_isUnknownOpcode hop (by decide)),
    if_neg hcolon, if_neg hquestion]
  split
  · next hmod =>
    subst hmod
    cases hasMod
    · rfl
    · cases hop
  · rfl

theorem Reads.length_eq {b0 b1 : Byte} (h : Reads hasMod (b0 :: b1 :: bs) i rest) :
    i.length = lengthByFirstBytes hasMod b0 b1 := by
  cases h with
  | haltBadMode h => exact (lengthByFirstBytes_badMode h).symm
  | haltBadCmp h => exact (lengthByFirstBytes_badCmp h).symm
  | haltUnknown h => exact (lengthByFirstBytes_unknown h b1).symm
  | mod h =>
    subst h
    rfl
  | _ => rfl

end Reads

/-! ## Five bytes suffice (R103, R104) -/

/-- The decoder answers with an instruction. -/
def Answers (d : Decoded) : Prop := ∃ i rest, d = .ok (i, rest)

theorem Answers.ite {c : Prop} [Decidable c] {d d' : Decoded} (h : Answers d) (h' : Answers d') :
    Answers (if c then d else d') := by
  split
  · exact h
  · exact h'

theorem answers_decodeColon (m b2 b3 b4 : Byte) (rest : List Byte) :
    Answers (decodeColon (m :: b2 :: b3 :: b4 :: rest)) :=
  .ite ⟨_, _, rfl⟩ <| .ite ⟨_, _, rfl⟩ <| .ite ⟨_, _, rfl⟩ ⟨_, _, rfl⟩

theorem answers_decodeQuestion (c b2 b3 b4 : Byte) (rest : List Byte) :
    Answers (decodeQuestion (c :: b2 :: b3 :: b4 :: rest)) :=
  .ite ⟨_, _, rfl⟩ <| .ite ⟨_, _, rfl⟩ <| .ite ⟨_, _, rfl⟩ <| .ite ⟨_, _, rfl⟩ ⟨_, _, rfl⟩

/-- Every row of the first-byte map finds its operands among the four bytes after the opcode. -/
theorem answers_decode (hasMod : Bool) (b0 b1 b2 b3 b4 : Byte) (rest : List Byte) :
    Answers (decode hasMod (b0 :: b1 :: b2 :: b3 :: b4 :: rest)) := by
  rw [decode]
  iterate 16 refine .ite ⟨_, _, rfl⟩ ?_
  refine .ite (answers_decodeColon b1 b2 b3 b4 rest) ?_
  iterate 3 refine .ite ⟨_, _, rfl⟩ ?_
  refine .ite (answers_decodeQuestion b1 b2 b3 b4 rest) ?_
  iterate 6 refine .ite ⟨_, _, rfl⟩ ?_
  exact ⟨_, _, rfl⟩

/-- Settles O6: the five bytes answer, and the instruction read from them has the length that the table gives. -/
theorem lengthIsGivenByTheFirstTwoBytes : Obligations.LengthIsGivenByTheFirstTwoBytes := by
  intro hasMod b0 b1 b2 b3 b4 rest
  obtain ⟨i, more, h⟩ := answers_decode hasMod b0 b1 b2 b3 b4 rest
  have hreads := reads_of_decode h
  refine ⟨i, ?_, hreads.length_eq⟩
  rw [← hreads.length_eq, hreads.drop_length, h]

end Sys2Proof

end

section

/-! Proofs of the statements on fetch, skip, decode and halt (40_fetch_decode.md): the window a step decodes, the step
by the instruction it runs, whitespace, the halts, the listing of R128, and the run. -/

namespace Sys2Proof

/-! ## The decoder (30_encoding.md R103, R104; 42_load_immediate.md R174; 44_control.md R208) -/

/-- Bytes enough for the longest instruction decode to an instruction. -/
theorem answers_of_length {hasMod : Bool} {bs : List Byte} (hlen : maxInstrLength ≤ bs.length) :
    Answers (decode hasMod bs) := by
  match bs, hlen with
  | b0 :: b1 :: b2 :: b3 :: b4 :: rest, _ => exact answers_decode hasMod b0 b1 b2 b3 b4 rest

/-- A string that ends before its instruction does has fewer bytes than the longest instruction. -/
theorem length_lt_of_truncated {hasMod : Bool} {bs : List Byte} (h : decode hasMod bs = .error .truncated) :
    bs.length < maxInstrLength := by
  by_contra hlen
  obtain ⟨i, rest, hanswer⟩ := answers_of_length (hasMod := hasMod) (Nat.not_lt.mp hlen)
  rw [hanswer] at h
  cases h

theorem isBadMode_of_not_mem {m : Byte} (hm : m ∉ ([0x27, 0x23, 0x3D] : List Byte)) : isBadMode m = true := by
  simpa [isBadMode] using hm

theorem isBadCmp_of_not_mem {c : Byte} (hc : c ∉ ([0x3D, 0x21, 0x3C, 0x3E] : List Byte)) : isBadCmp c = true := by
  simpa [isBadCmp] using hc

namespace Machine

/-! ## The window (R121, R122) -/

/-- Settles O34, by the laws of `fetchBytes`. -/
theorem fetchReadsTheStoreAtPc : Obligations.FetchReadsTheStoreAtPc := fun s =>
  ⟨fetchBytes_length_le s.pc maxInstrLength, fun k b hb => fetchBytes_get s.pc maxInstrLength k b hb,
    fetchBytes_stops s.pc maxInstrLength⟩

/-- Where pc is outside the store nothing can be fetched (R122). -/
theorem State.fetchWindow_eq_nil {s : State} (hpc : s.cfg.memSize ≤ s.x pcReg) : s.fetchWindow = [] :=
  if_pos hpc

/-! ## The step, by what the window decodes to -/

/-- What the step of a running core answers if its window decodes to `d`. -/
def State.stepOn (s : State) : Decoded → Result
  | .ok (i, rest) => exec i (s.advance (s.fetchWindow.length - rest.length))
  | .error _ => .next (s.advance s.fetchWindow.length).fetchOutOfRange

theorem step_eq_stepOn {s : State} (hs : s.stopped = false) :
    step s = s.stepOn (decode s.cfg.hasMod s.fetchWindow) :=
  step_of_running hs

/-- A stopped core takes no step (R120). -/
theorem step_of_stopped {s : State} (hs : s.stopped = true) : step s = .next s :=
  if_pos hs

/-- Settles O32: the instruction's case of a running core's step. -/
theorem stepRunsTheDecodedInstruction : Obligations.StepRunsTheDecodedInstruction := by
  intro s i rest hs hdecode
  rw [step_eq_stepOn hs, hdecode, State.stepOn]

/-- The instruction runs with pc moved on by its length (10_state.md R35). -/
theorem step_of_decode {s : State} {i : Instr} {rest : List Byte} (hs : s.stopped = false)
    (hdecode : decode s.cfg.hasMod s.fetchWindow = .ok (i, rest)) : step s = exec i (s.advance i.length) := by
  rw [stepRunsTheDecodedInstruction s i rest hs hdecode, decode_length hdecode, Nat.add_sub_cancel]

/-- Where the window ends before its instruction does, the step ends in a fetch out of range (R122). -/
theorem step_of_truncated {s : State} (hs : s.stopped = false)
    (hdecode : decode s.cfg.hasMod s.fetchWindow = .error .truncated) :
    step s = .next (s.advance s.fetchWindow.length).fetchOutOfRange := by
  rw [step_eq_stepOn hs, hdecode, State.stepOn]

/-! ## Whitespace (R123) -/

/-- Each whitespace byte is a one-byte instruction that does nothing. -/
theorem whitespace_decodes {b : Byte} (hb : b ∈ ([0x20, 0x09, 0x0A, 0x0D, 0x0C, 0x0B] : List Byte)) :
    ∃ i : Instr, i.length = 1 ∧ (∀ hasMod, decode hasMod [b] = .ok (i, [])) ∧ ∀ s, exec i s = .next s := by
  simp only [List.mem_cons, List.not_mem_nil, or_false] at hb
  rcases hb with rfl | rfl | rfl | rfl | rfl | rfl
  · exact ⟨.skipSpace, rfl, fun _ => rfl, fun _ => rfl⟩
  · exact ⟨.skipTab, rfl, fun _ => rfl, fun _ => rfl⟩
  · exact ⟨.skipNewline, rfl, fun _ => rfl, fun _ => rfl⟩
  · exact ⟨.skipCarriageReturn, rfl, fun _ => rfl, fun _ => rfl⟩
  · exact ⟨.skipFormFeed, rfl, fun _ => rfl, fun _ => rfl⟩
  · exact ⟨.skipVerticalTab, rfl, fun _ => rfl, fun _ => rfl⟩

/-- Settles O31: the step moves pc past the byte, and the instruction does nothing more. -/
theorem whitespaceChangesNothing : Obligations.WhitespaceChangesNothing := by
  refine ⟨decode_skipSpace, decode_skipTab, decode_skipNewline, decode_skipVerticalTab, decode_skipFormFeed,
    decode_skipCarriageReturn, fun s => ⟨rfl, rfl, rfl, rfl, rfl, rfl, fun b hs hb hbytes => ?_⟩⟩
  obtain ⟨i, hlen, hdecode, hexec⟩ := whitespace_decodes hb
  obtain ⟨hstep, hwrites⟩ := stepRunsTheInstructionStandingAtPc s [b] i hs hbytes (hdecode _)
  rw [hlen] at hstep hwrites
  exact ⟨s.advance 1, hstep.trans (hexec _), hwrites⟩

/-! ## Halts (R122, R125-R127, R130, R131) -/

/-- From `s` to `t` the core has halted and pc has become `p`; nothing else changed. -/
def HaltsWithPc (s t : State) (p : Nat) : Prop :=
  t.halted = true ∧ t.x pcReg = p ∧ SameRegsBut [pcReg] s t ∧ SameMem s t ∧ SamePortsBut [] s t ∧ SameHost s t ∧
    t.cfg = s.cfg ∧ t.blockedIn = s.blockedIn

/-- Fetches before a halt move pc and change nothing else. -/
theorem HaltsWithPc.after_advance {s t : State} {n p : Nat} (h : HaltsWithPc (s.advance n) t p) :
    HaltsWithPc s t p := by
  obtain ⟨hhalted, hpc, hregs, hrest⟩ := h
  obtain ⟨-, hmoved, -⟩ := s.advance_writesOnly n
  exact ⟨hhalted, hpc, fun r hr => (hregs r hr).trans (hmoved r hr), hrest⟩

/-- A halt after n fetches leaves pc past the n bytes (R131). -/
theorem State.advance_halt_haltsWithPc (s : State) (n : Nat) :
    HaltsWithPc s (s.advance n).halt ((s.x pcReg + n) % 2 ^ s.cfg.wordBits) := by
  obtain ⟨hpc, -⟩ := s.advance_writesOnly n
  exact .after_advance (n := n)
    ⟨rfl, hpc, SameRegsBut.refl _ _, fun _ => rfl, fun _ _ => rfl, ⟨rfl, rfl⟩, rfl, rfl⟩

/-- A fetch out of range after n fetches leaves pc as OOB_FETCH_PC says of the address that failed (R122, R131). -/
theorem State.advance_fetchOutOfRange_haltsWithPc (s : State) (n : Nat) :
    HaltsWithPc s (s.advance n).fetchOutOfRange
      (s.cfg.pcAfterFailedFetch ((s.x pcReg + n) % 2 ^ s.cfg.wordBits)) := by
  have h : HaltsWithPc (s.advance n) (s.advance n).fetchOutOfRange
      (s.cfg.pcAfterFailedFetch ((s.advance n).x pcReg)) := (s.advance n).fetchOutOfRange_does
  obtain ⟨hpc, -⟩ := s.advance_writesOnly n
  exact hpc ▸ h.after_advance

/-- An instruction that halts when it runs does nothing but halt (R130). -/
theorem Does.eq_halt {s t : State} {i : Instr} (h : Does s i t) (hi : i.haltsWhenRun) : t = s.halt := by
  cases h with
  | halts => rfl
  | writesReg i d v hh => exact absurd hi hh
  | nothing i hh => exact absurd hi hh
  | stores | calls | returns | readsPort | readBlocks | writesPort | writeBlocks => exact hi.elim

/-- A step at an instruction that halts when it runs. -/
theorem step_of_halting {s t : State} {i : Instr} {rest : List Byte} (hs : s.stopped = false)
    (h : step s = .next t) (hdecode : decode s.cfg.hasMod s.fetchWindow = .ok (i, rest)) (hi : i.haltsWhenRun) :
    HaltsWithPc s t ((s.x pcReg + i.length) % 2 ^ s.cfg.wordBits) := by
  rw [step_of_decode hs hdecode] at h
  rw [(exec_does h).eq_halt hi]
  exact s.advance_halt_haltsWithPc i.length

/-- A step whose window ends before its instruction does. -/
theorem step_truncated_haltsWithPc {s t : State} (hs : s.stopped = false) (h : step s = .next t)
    (hdecode : decode s.cfg.hasMod s.fetchWindow = .error .truncated) :
    HaltsWithPc s t
      (s.cfg.pcAfterFailedFetch ((s.x pcReg + s.fetchWindow.length) % 2 ^ s.cfg.wordBits)) := by
  rw [step_of_truncated hs hdecode] at h
  cases h
  exact s.advance_fetchOutOfRange_haltsWithPc s.fetchWindow.length

/-- Settles O37: a truncated window ends at the bound, and the step is a fetch out of range there. -/
theorem outOfRangeFetchHalts : Obligations.OutOfRangeFetchHalts := by
  intro s hs hdecode
  exact ⟨fetchBytes_stops s.pc maxInstrLength (length_lt_of_truncated hdecode), _,
    step_of_truncated hs hdecode, s.advance_fetchOutOfRange_haltsWithPc s.fetchWindow.length⟩

/-- A running core's step that halts does so at a halting instruction or at a fetch out of range (R130). -/
theorem step_halted_haltsWithPc {s t : State} (hs : s.stopped = false) (h : step s = .next t)
    (ht : t.halted = true) : ∃ p, HaltsWithPc s t p := by
  rcases (stepHaltsExactlyOnTheHaltConditions s t hs h).mp ht with hdecode | ⟨i, rest, hdecode, hi⟩
  · exact ⟨_, step_truncated_haltsWithPc hs h hdecode⟩
  · exact ⟨_, step_of_halting hs h hdecode hi⟩

/-- Settles O40: the frame for any halt, and pc for each kind of halt; an opcode fetch out of range is a fetch out of
range after no byte. -/
theorem haltingStepOnlyMovesPc : Obligations.HaltingStepOnlyMovesPc := by
  refine ⟨fun s t hs h ht => ?_, fun s t hs h => ⟨fun i rest hdecode hi => ?_, fun hdecode => ?_, fun hpc => ?_⟩⟩
  · obtain ⟨_, -, -, hregs, hmem, hports, hhost, hcfg, hblocked⟩ := step_halted_haltsWithPc hs h ht
    exact ⟨hregs, hmem, hports, hhost, hcfg, hblocked.trans (State.blockedIn_of_running hs)⟩
  · obtain ⟨hhalted, hpc, -⟩ := step_of_halting hs h hdecode hi
    exact ⟨hhalted, hpc⟩
  · obtain ⟨hhalted, hpc, -⟩ := step_truncated_haltsWithPc hs h hdecode
    exact ⟨hhalted, hpc⟩
  · have hwindow := State.fetchWindow_eq_nil hpc
    obtain ⟨hhalted, hpc', -⟩ := step_truncated_haltsWithPc hs h (by rw [hwindow, decode])
    rw [hwindow, List.length_nil, Nat.add_zero, State.x_mod] at hpc'
    exact ⟨hhalted, hpc'⟩

/-- A step at the bytes of an instruction whose meaning is to halt. -/
theorem step_at_halting_bytes {s : State} {bs : List Byte} {i : Instr} (hs : s.stopped = false)
    (hbytes : s.BytesAtPc bs) (hdecode : decode s.cfg.hasMod bs = .ok (i, []))
    (hexec : ∀ u, exec i u = .next u.halt) :
    ∃ t, step s = .next t ∧ HaltsWithPc s t ((s.x pcReg + bs.length) % 2 ^ s.cfg.wordBits) := by
  obtain ⟨hstep, -⟩ := stepRunsTheInstructionStandingAtPc s bs i hs hbytes hdecode
  have hlen : bs.length = i.length := by simpa using decode_length hdecode
  rw [hlen]
  exact ⟨_, hstep.trans (hexec _), s.advance_halt_haltsWithPc i.length⟩

/-- Settles O30: the rows of the maps, the meaning that the four instructions share, and the step at their bytes. -/
theorem haltInstructionsOnlyHalt : Obligations.HaltInstructionsOnlyHalt := by
  have hcolon : ∀ hasMod m rest, m ∉ ([0x27, 0x23, 0x3D] : List Byte) →
      decode hasMod (0x3A :: m :: rest) = .ok (.haltBadMode m, rest) :=
    fun _ _ rest hm => decodeColon_bad rest (isBadMode_of_not_mem hm)
  have hquestion : ∀ hasMod c rest, c ∉ ([0x3D, 0x21, 0x3C, 0x3E] : List Byte) →
      decode hasMod (0x3F :: c :: rest) = .ok (.haltBadCmp c, rest) :=
    fun _ _ rest hc => decodeQuestion_bad rest (isBadCmp_of_not_mem hc)
  refine ⟨decode_halt, fun _ _ rest hop => decode_unknown hop rest, hcolon, hquestion, fun b s =>
    ⟨⟨_, rfl, s.halt_haltsOnly⟩, ⟨_, rfl, s.halt_haltsOnly⟩, ⟨_, rfl, s.halt_haltsOnly⟩, ⟨_, rfl, s.halt_haltsOnly⟩,
      fun bs hs hbytes hcases => ?_⟩⟩
  rcases hcases with rfl | ⟨hop, rfl⟩ | ⟨hm, rfl⟩ | ⟨hc, rfl⟩
  · exact step_at_halting_bytes hs hbytes (decode_halt _ []) fun _ => rfl
  · exact step_at_halting_bytes hs hbytes (decode_unknown hop []) fun _ => rfl
  · exact step_at_halting_bytes hs hbytes (hcolon _ b [] hm) fun _ => rfl
  · exact step_at_halting_bytes hs hbytes (hquestion _ b [] hc) fun _ => rfl

/-! ## The listing of R128

After `k` fetches the decoder still has the rest of the window before it, and the listing the state `s.advance k`. The
two are followed side by side, one fetch at a time: `s.LeadsTo k d t` says that they end in the same state. -/

/-- The rest of the window after `k` fetches. -/
def State.windowAfter (s : State) (k : Nat) : List Byte :=
  fetchBytes s.cfg.memSize s.mem (s.advance k).pc (maxInstrLength - k)

theorem State.windowAfter_zero (s : State) : s.windowAfter 0 = s.fetchWindow := by
  rw [State.windowAfter, State.advance_zero]
  rfl

/-- One more fetch, while the window has room for it. -/
theorem State.windowAfter_eq (s : State) {k : Nat} (hk : k < maxInstrLength) :
    s.windowAfter k = if s.beyond k then [] else s.fetched k :: s.windowAfter (k + 1) := by
  obtain ⟨n, hn⟩ : ∃ n, maxInstrLength - k = n + 1 := ⟨maxInstrLength - (k + 1), by omega⟩
  have hn' : maxInstrLength - (k + 1) = n := by omega
  rw [State.windowAfter, State.windowAfter, hn, hn', State.fetchBytes_advance]

/-- If the first `k` bytes of the window were fetched and the window decodes to `d`, the step ends in `t`. -/
def State.LeadsTo (s : State) (k : Nat) (d : Decoded) (t : State) : Prop :=
  s.fetchWindow.length = k + (s.windowAfter k).length → s.stepOn d = .next t

section LeadsTo

variable {s : State} {k : Nat}

/-- An instruction whose bytes have all been fetched runs in the state that the listing has reached. -/
theorem State.LeadsTo.exec {i : Instr} {t : State} (h : exec i (s.advance k) = .next t) :
    s.LeadsTo k (.ok (i, s.windowAfter k)) t := by
  intro hlen
  rw [State.stepOn, hlen, Nat.add_sub_cancel]
  exact h

/-- A fetch: out of range, both sides halt; otherwise both go on with the same byte. -/
theorem State.LeadsTo.fetch (hk : k < maxInstrLength) {D : List Byte → Decoded} {f : Byte → State → State}
    (hnil : D [] = .error .truncated)
    (hcons : ∀ b, s.LeadsTo (k + 1) (D (b :: s.windowAfter (k + 1))) (f b (s.advance (k + 1)))) :
    s.LeadsTo k (D (s.windowAfter k)) ((s.advance k).thenFetch f) := by
  intro hlen
  rw [State.advance_thenFetch]
  rw [s.windowAfter_eq hk] at hlen ⊢
  split at hlen
  · next hbeyond =>
    rw [if_pos hbeyond, if_pos hbeyond, hnil, State.stepOn, hlen]
    rfl
  · next hinside =>
    rw [if_neg hinside, if_neg hinside]
    exact hcons _ (by rw [hlen, List.length_cons]; omega)

/-! The formats of 30_encoding.md R94, where the listing runs the instruction on the fetched bytes. -/

theorem State.LeadsTo.reg1 (hk : k + 1 ≤ maxInstrLength) {f : Reg → Instr} {L : Byte → State → State}
    (h : ∀ r t, Machine.exec (f (regOf r)) t = .next (L r t)) :
    s.LeadsTo k (takeReg1 f (s.windowAfter k)) ((s.advance k).thenFetch L) :=
  .fetch (by omega) rfl fun r => .exec (h r _)

theorem State.LeadsTo.reg2 (hk : k + 2 ≤ maxInstrLength) {f : Reg → Reg → Instr} {L : Byte → Byte → State → State}
    (h : ∀ q r t, Machine.exec (f (regOf q) (regOf r)) t = .next (L q r t)) :
    s.LeadsTo k (takeReg2 f (s.windowAfter k)) ((s.advance k).thenFetch fun q t => t.thenFetch (L q)) :=
  .fetch (by omega) rfl fun q => .fetch (D := fun bs => takeReg2 f (q :: bs)) (by omega) rfl fun r => .exec (h q r _)

theorem State.LeadsTo.regByte (hk : k + 2 ≤ maxInstrLength) {f : Reg → Byte → Instr}
    {L : Byte → Byte → State → State} (h : ∀ d v t, Machine.exec (f (regOf d) v) t = .next (L d v t)) :
    s.LeadsTo k (takeRegByte f (s.windowAfter k)) ((s.advance k).thenFetch fun d t => t.thenFetch (L d)) :=
  .fetch (by omega) rfl fun d => .fetch (D := fun bs => takeRegByte f (d :: bs)) (by omega) rfl fun v => .exec (h d v _)

theorem State.LeadsTo.reg3 (hk : k + 3 ≤ maxInstrLength) {f : Reg → Reg → Reg → Instr}
    {L : Byte → Byte → Byte → State → State}
    (h : ∀ p q r t, Machine.exec (f (regOf p) (regOf q) (regOf r)) t = .next (L p q r t)) :
    s.LeadsTo k (takeReg3 f (s.windowAfter k))
      ((s.advance k).thenFetch fun p t => t.thenFetch fun q t => t.thenFetch (L p q)) :=
  .fetch (by omega) rfl fun p => .fetch (D := fun bs => takeReg3 f (p :: bs)) (by omega) rfl fun q =>
    .fetch (D := fun bs => takeReg3 f (p :: q :: bs)) (by omega) rfl fun r => .exec (h p q r _)

theorem State.LeadsTo.regByteByte (hk : k + 3 ≤ maxInstrLength) {f : Reg → Byte → Byte → Instr}
    {L : Byte → Byte → Byte → State → State} (h : ∀ d x y t, Machine.exec (f (regOf d) x y) t = .next (L d x y t)) :
    s.LeadsTo k (takeRegByteByte f (s.windowAfter k))
      ((s.advance k).thenFetch fun d t => t.thenFetch fun x t => t.thenFetch (L d x)) :=
  .fetch (by omega) rfl fun d => .fetch (D := fun bs => takeRegByteByte f (d :: bs)) (by omega) rfl fun x =>
    .fetch (D := fun bs => takeRegByteByte f (d :: x :: bs)) (by omega) rfl fun y => .exec (h d x y _)

end LeadsTo

/-! The arms of the listing. -/

theorem leadsTo_listingColon (s : State) :
    s.LeadsTo 1 (decodeColon (s.windowAfter 1)) (listingColon (s.advance 1)) := by
  refine .fetch (by decide) rfl fun m => ?_
  rcases colonByte_cases m with rfl | rfl | rfl | hm
  · exact .regByte (f := .ldb) (by decide) fun _ _ _ => rfl
  · rw [if_neg (by decide), if_pos rfl]
    refine .regByteByte (f := .ldx) (by decide) fun d h l t => ?_
    rw [exec, execLdx, hexOperand]
    cases hexval h <;> cases hexval l <;> rfl
  · exact .reg2 (f := .mov) (by decide) fun _ _ _ => rfl
  · have hldb : m ≠ 0x27 := by rintro rfl; cases hm
    have hldx : m ≠ 0x23 := by rintro rfl; cases hm
    have hmov : m ≠ 0x3D := by rintro rfl; cases hm
    rw [decodeColon_bad _ hm, if_neg hldb, if_neg hldx, if_neg hmov]
    exact .exec rfl

/-- An unknown comparison byte selects no comparison in the listing either. -/
theorem cmpOfByte_bad {c : Byte} (hc : isBadCmp c = true) : cmpOfByte c = none := by
  have heq : c ≠ 0x3D := by rintro rfl; cases hc
  have hne : c ≠ 0x21 := by rintro rfl; cases hc
  have hlt : c ≠ 0x3C := by rintro rfl; cases hc
  have hgt : c ≠ 0x3E := by rintro rfl; cases hc
  rw [cmpOfByte, if_neg heq, if_neg hne, if_neg hlt, if_neg hgt]

theorem leadsTo_listingQuestion (s : State) :
    s.LeadsTo 1 (decodeQuestion (s.windowAfter 1)) (listingQuestion (s.advance 1)) := by
  refine .fetch (by decide) rfl fun c => ?_
  rcases questionByte_cases c with rfl | rfl | rfl | rfl | hc
  · exact .reg3 (f := .jeq) (by decide) fun _ _ _ _ => rfl
  · exact .reg3 (f := .jne) (by decide) fun _ _ _ _ => rfl
  · exact .reg3 (f := .jlt) (by decide) fun _ _ _ _ => rfl
  · exact .reg3 (f := .jgt) (by decide) fun _ _ _ _ => rfl
  · rw [decodeQuestion_bad _ hc, cmpOfByte_bad hc]
    exact .exec rfl

theorem leadsTo_listingIn (s : State) :
    s.LeadsTo 1 (takeReg2 .inp (s.windowAfter 1)) (listingIn (s.advance 1)) := by
  refine .reg2 (k := 1) (by decide) fun d p t => ?_
  rw [exec, execIn]
  cases t.portRead (portIndex (t.reg (regOf p))) <;> rfl

theorem leadsTo_listingOut (s : State) :
    s.LeadsTo 1 (takeReg2 .out (s.windowAfter 1)) (listingOut (s.advance 1)) := by
  refine .reg2 (k := 1) (by decide) fun p src t => ?_
  rw [exec, execOut]
  cases t.portWrite (portIndex (t.reg (regOf p))) (t.reg (regOf src)) <;> rfl

/-! What the listing does with an unknown opcode byte: it is no whitespace and no F3 opcode, and the case halts. -/

section Unknown

variable {hasMod : Bool} {op : Byte} (hop : isUnknownOpcode hasMod op = true)
include hop

theorem not_whitespace_of_unknown : ¬whitespaceBytes.contains op = true := by
  rw [List.contains_iff_mem]
  exact not_mem_of_isUnknownOpcode hop (by decide)

theorem aluOpOfByte_unknown : aluOpOfByte hasMod op = none := by
  have hne : ∀ b ∈ knownFirstBytes, op ≠ b := fun _ hb => ne_of_isUnknownOpcode hop hb
  rw [aluOpOfByte]
  iterate 4 rw [if_neg (hne _ (by decide))]
  split
  · next hmod =>
    subst hmod
    cases hasMod
    · rfl
    · cases hop
  · iterate 5 rw [if_neg (hne _ (by decide))]

theorem listingCase_unknown (s : State) : listingCase op s = s.halt := by
  have hne : ∀ b ∈ knownFirstBytes, op ≠ b := fun _ hb => ne_of_isUnknownOpcode hop hb
  rw [listingCase]
  iterate 10 rw [if_neg (hne _ (by decide))]

end Unknown

/-- The first byte chooses the same instruction in the decoder's map and in the listing. -/
theorem leadsTo_listingStep {s : State} (hs : s.stopped = false) :
    s.LeadsTo 0 (decode s.cfg.hasMod (s.windowAfter 0)) (listingStep (s.advance 0)) := by
  have hrunning : ¬(s.advance 0).stopped = true := by simpa using hs
  rw [listingStep, if_neg hrunning]
  refine .fetch (D := decode s.cfg.hasMod) (by decide) rfl fun op => ?_
  rcases firstByte_cases s.cfg.hasMod op with rfl | rfl | rfl | rfl | rfl | rfl | rfl | rfl | rfl | rfl | rfl | rfl |
    rfl | rfl | rfl | rfl | rfl | rfl | rfl | rfl | rfl | rfl | rfl | rfl | rfl | rfl | ⟨rfl, hmod⟩ | hop
  · exact .exec (i := .halt) rfl
  · exact .exec (i := .skipTab) rfl
  · exact .exec (i := .skipNewline) rfl
  · exact .exec (i := .skipVerticalTab) rfl
  · exact .exec (i := .skipFormFeed) rfl
  · exact .exec (i := .skipCarriageReturn) rfl
  · exact .exec (i := .skipSpace) rfl
  · exact .reg2 (f := .st) (by decide) fun _ _ _ => rfl
  · exact .reg3 (f := .and) (by decide) fun _ _ _ _ => rfl
  · exact .reg3 (f := .mul) (by decide) fun _ _ _ _ => rfl
  · exact .reg3 (f := .add) (by decide) fun _ _ _ _ => rfl
  · exact .exec (i := .ret) rfl
  · exact .reg3 (f := .sub) (by decide) fun _ _ _ _ => rfl
  · exact .reg1 (f := .jmp) (by decide) fun _ _ => rfl
  · exact .reg3 (f := .div) (by decide) fun _ _ _ _ => rfl
  · exact leadsTo_listingColon s
  · exact .reg1 (f := .call) (by decide) fun _ _ => rfl
  · exact .reg3 (f := .shl) (by decide) fun _ _ _ _ => rfl
  · exact .reg3 (f := .shr) (by decide) fun _ _ _ _ => rfl
  · exact leadsTo_listingQuestion s
  · exact .reg2 (f := .ld) (by decide) fun _ _ _ => rfl
  · exact .reg3 (f := .xor) (by decide) fun _ _ _ _ => rfl
  · exact leadsTo_listingIn s
  · exact .reg3 (f := .or) (by decide) fun _ _ _ _ => rfl
  · exact leadsTo_listingOut s
  · exact .reg2 (f := .not) (by decide) fun _ _ _ => rfl
  · rw [hmod, State.advance_cfg, hmod]
    exact .reg3 (f := .mod) (by decide) fun _ _ _ _ => rfl
  · rw [decode_unknown hop, if_neg (not_whitespace_of_unknown hop), State.advance_cfg,
      aluOpOfByte_unknown hop, listingCase_unknown hop]
    exact .exec rfl

/-- Settles O41: a running core's step and the listing lead to the same state, fetch by fetch. -/
theorem stepIsTheListing : Obligations.StepIsTheListing := by
  intro s
  cases hs : s.stopped
  · have h := leadsTo_listingStep hs
    rw [State.windowAfter_zero, State.advance_zero] at h
    rw [step_eq_stepOn hs]
    exact h (by rw [State.windowAfter_zero, Nat.zero_add])
  · rw [step_of_stopped hs, listingStep, if_pos hs]

/-! ## The run (R120, R129) -/

theorem run_of_halted {s : State} (hs : s.halted = true) (n : Nat) : run n s = .next (.ended s) := by
  cases n with
  | zero => rw [run, runEndAt, if_pos hs]
  | succ n => rw [run, if_pos hs]

theorem run_succ_of_running {s t : State} (hs : s.halted = false) (h : step s = .next t) (n : Nat) :
    run (n + 1) s = run n t := by
  rw [run, hs, h]
  rfl

/-- What a run says of the state it answers. -/
def RunEnd.Truthful : RunEnd → Prop
  | .ended t => t.halted = true
  | .running t => t.halted = false

/-- A run always answers, and truthfully: each of its steps answers, as the listing does. -/
theorem run_answers (n : Nat) (s : State) : ∃ e, run n s = .next e ∧ e.Truthful := by
  induction n generalizing s with
  | zero =>
    cases hs : s.halted
    · exact ⟨.running s, by rw [run, runEndAt, hs]; rfl, hs⟩
    · exact ⟨.ended s, run_of_halted hs 0, hs⟩
  | succ n ih =>
    cases hs : s.halted
    · rw [run_succ_of_running hs (stepIsTheListing s)]
      exact ih _
    · exact ⟨.ended s, run_of_halted hs _, hs⟩

theorem truthful_of_run {n : Nat} {s : State} {e : RunEnd} (h : run n s = .next e) : e.Truthful := by
  obtain ⟨e', h', ht⟩ := run_answers n s
  rw [h] at h'
  cases h'
  exact ht

/-- Settles O35: the equations of the step and of the run at a halted and at a running state. -/
theorem runRepeatsTheStepUntilHalted : Obligations.RunRepeatsTheStepUntilHalted := by
  intro s n
  refine ⟨fun hs => ⟨step_of_stopped (by rw [State.stopped, hs, Bool.true_or]), run_of_halted hs n⟩,
    fun t hs h => run_succ_of_running hs h n, fun t h => truthful_of_run h, fun t h => truthful_of_run h⟩

/-- A run that has ended stays ended with more fuel. -/
theorem run_add_of_ended {n : Nat} {s t : State} (h : run n s = .next (.ended t)) (k : Nat) :
    run (n + k) s = .next (.ended t) := by
  induction n generalizing s with
  | zero =>
    cases hs : s.halted
    · rw [run, runEndAt, hs] at h
      cases h
    · rw [run_of_halted hs] at h ⊢
      exact h
  | succ n ih =>
    cases hs : s.halted
    · have hstep := stepIsTheListing s
      rw [run_succ_of_running hs hstep] at h
      rw [Nat.add_right_comm, run_succ_of_running hs hstep]
      exact ih h
    · rw [run_of_halted hs] at h ⊢
      exact h

/-- Settles O36: each step answers, and a halted state is where a run stays. -/
theorem moreFuelKeepsTheEndOfARun : Obligations.MoreFuelKeepsTheEndOfARun := by
  intro s n k
  obtain ⟨e, he, -⟩ := run_answers n s
  exact ⟨⟨e, he⟩, fun t h => run_add_of_ended h k⟩

end Machine

end Sys2Proof

end

section

/-! Proofs of the statements on arithmetic, bitwise, shift and complement (41_alu.md): the value each operation gives,
as an unsigned integer, and that writing it to one register is all the instruction does. -/

namespace Sys2Proof

open Sys2Proof.Claims

/-! ## Formats F3 and F2 (30_encoding.md R94) -/

theorem encodes3_of_takeReg3 {op : Byte} {f : Reg → Reg → Reg → Instr}
    (h : ∀ hasMod rest, decode hasMod (op :: rest) = takeReg3 f rest) : Encodes3 op f := by
  intro hasMod p q r rest
  rw [h, takeReg3]

theorem encodes2_of_takeReg2 {op : Byte} {f : Reg → Reg → Instr}
    (h : ∀ hasMod rest, decode hasMod (op :: rest) = takeReg2 f rest) : Encodes2 op f := by
  intro hasMod p q rest
  rw [h, takeReg2]

namespace Machine

/-! ## The operations on unsigned integers -/

section Values

variable {w : Nat} (u v : Word w)

theorem toNat_alu_add : (alu .add u v).toNat = (u.toNat + v.toNat) % 2 ^ w := BitVec.toNat_add u v

/-- The difference of two words is the word of the integer difference, which may be negative. -/
theorem toNat_alu_sub : (alu .sub u v).toNat = (((u.toNat : Int) - (v.toNat : Int)) % (2 ^ w : Int)).toNat := by
  have hsub : u - v = BitVec.ofInt w ((u.toNat : Int) - (v.toNat : Int)) := by
    simp [Int.sub_eq_add_neg, BitVec.sub_eq_add_neg, BitVec.ofInt_add, BitVec.ofInt_neg]
  rw [alu, aluSub, hsub, BitVec.toNat_ofInt, Nat.cast_pow, Nat.cast_ofNat]

theorem toNat_alu_mul : (alu .mul u v).toNat = (u.toNat * v.toNat) % 2 ^ w := BitVec.toNat_mul u v

/-- The unsigned integer of a result that is 0 in the case a guard excludes (R147, R148, R152, R153). -/
theorem toNat_ite_zero (c : Prop) [Decidable c] : (if c then 0 else u).toNat = if c then 0 else u.toNat := by
  split
  · exact BitVec.toNat_zero
  · rfl

theorem toNat_alu_div : (alu .div u v).toNat = if v.toNat = 0 then 0 else u.toNat / v.toNat := by
  rw [alu, aluDiv, toNat_ite_zero, BitVec.udiv_eq, BitVec.toNat_udiv]
  exact if_congr BitVec.toNat_eq rfl rfl

theorem toNat_alu_mod : (alu .mod u v).toNat = if v.toNat = 0 then 0 else u.toNat % v.toNat := by
  rw [alu, aluMod, toNat_ite_zero, BitVec.umod_eq, BitVec.toNat_umod]
  exact if_congr BitVec.toNat_eq rfl rfl

theorem toNat_alu_and : (alu .and u v).toNat = u.toNat &&& v.toNat := BitVec.toNat_and u v

theorem toNat_alu_or : (alu .or u v).toNat = u.toNat ||| v.toNat := BitVec.toNat_or u v

theorem toNat_alu_xor : (alu .xor u v).toNat = u.toNat ^^^ v.toNat := BitVec.toNat_xor u v

theorem toNat_alu_shl :
    (alu .shl u v).toNat = if w ≤ v.toNat then 0 else (u.toNat * 2 ^ v.toNat) % 2 ^ w := by
  rw [alu, aluShl, toNat_ite_zero, BitVec.toNat_shiftLeft, Nat.shiftLeft_eq]

theorem toNat_alu_shr : (alu .shr u v).toNat = if w ≤ v.toNat then 0 else u.toNat / 2 ^ v.toNat := by
  rw [alu, aluShr, toNat_ite_zero, BitVec.toNat_ushiftRight, Nat.shiftRight_eq_div_pow]

theorem toNat_aluNot : (aluNot u).toNat = 2 ^ w - 1 - u.toNat := BitVec.toNat_not

end Values

/-! ## The instructions -/

/-- An instruction that writes a word to one register has that one effect, with the word's unsigned integer. -/
theorem exec_writesOnly {i : Instr} {s : State} {d : Reg} {v : Word s.cfg.wordBits} {n : Nat}
    (hexec : exec i s = .next (s.setReg d v)) (hv : v.toNat = n) :
    ∃ t, exec i s = .next t ∧ WritesOnly s t d n := by
  subst hv
  exact ⟨_, hexec, s.setReg_word d v⟩

/-- Settles O8: each instruction writes its result to one register, and the result is reduced modulo 2^W. -/
theorem arithmeticWrapsModuloTheWord : Obligations.ArithmeticWrapsModuloTheWord := by
  refine ⟨encodes3_of_takeReg3 decode_add, encodes3_of_takeReg3 decode_sub, encodes3_of_takeReg3 decode_mul, ?_⟩
  intro d a b s
  exact ⟨exec_writesOnly rfl (toNat_alu_add ..), exec_writesOnly rfl (toNat_alu_sub ..),
    exec_writesOnly rfl (toNat_alu_mul ..)⟩

/-- Settles O9: the test of the divisor comes before the division, in the words as in the integers. -/
theorem divisionByZeroYieldsZero : Obligations.DivisionByZeroYieldsZero := by
  refine ⟨encodes3_of_takeReg3 decode_div, ?_, ?_, ?_⟩
  · intro p q r rest
    rw [decode_mod, takeReg3]
  · exact decode_unknown (by decide)
  · intro d a b s
    exact ⟨exec_writesOnly rfl (toNat_alu_div ..), exec_writesOnly rfl (toNat_alu_mod ..)⟩

/-- Settles O11: the test of the amount is on its whole unsigned integer, and below W a shift is a multiplication or a
division by a power of two. -/
theorem shiftByTheWidthOrMoreYieldsZero : Obligations.ShiftByTheWidthOrMoreYieldsZero := by
  refine ⟨encodes3_of_takeReg3 decode_shl, encodes3_of_takeReg3 decode_shr, ?_⟩
  intro d a b s
  exact ⟨exec_writesOnly rfl (toNat_alu_shl ..), exec_writesOnly rfl (toNat_alu_shr ..)⟩

/-- Settles O10: bit by bit, a word's operations are those of its unsigned integer. -/
theorem bitwiseOperationsWriteOneRegister : Obligations.BitwiseOperationsWriteOneRegister := by
  refine ⟨encodes3_of_takeReg3 decode_and, encodes3_of_takeReg3 decode_or, encodes3_of_takeReg3 decode_xor, ?_⟩
  intro d a b s
  exact ⟨exec_writesOnly rfl (toNat_alu_and ..), exec_writesOnly rfl (toNat_alu_or ..),
    exec_writesOnly rfl (toNat_alu_xor ..)⟩

/-- Settles O12: inverting every bit subtracts from the word of all ones, 2^W - 1. -/
theorem complementInvertsEveryBit : Obligations.ComplementInvertsEveryBit :=
  ⟨encodes2_of_takeReg2 decode_not, fun _ _ _ => exec_writesOnly rfl (toNat_aluNot _)⟩

end Machine

end Sys2Proof

end

section

/-! Proofs of the statements on load immediate and register copy (42_load_immediate.md): the values of the literal byte
and of the two digits fit in every admissible word, so each is written whole. -/

namespace Sys2Proof.Machine

/-! ## The value of two hex digits (30_encoding.md R97, R98) -/

/-- A hex digit is worth less than 16, by the bounds of its range. -/
theorem hexval_lt {c : Byte} {x : Nat} (hx : hexval c = some x) : x < 16 := by
  rw [hexval_eq] at hx
  split_ifs at hx with hdigit hupper hlower
  · cases hx; omega
  · cases hx; omega
  · cases hx; omega

theorem hexOperand_some {h l : Byte} {x y : Nat} (hx : hexval h = some x) (hy : hexval l = some y) :
    hexOperand h l = some (16 * x + y) := by
  rw [hexOperand, hx, hy]

/-- Every value below 256 is the unsigned integer of a word, as no word is narrower than a byte (00_scope.md R9). -/
theorem toNat_ofNat_wordBits (c : Config) {n : Nat} (hn : n < 256) : (BitVec.ofNat c.wordBits n).toNat = n := by
  have hbyte : 2 ^ 8 ≤ 2 ^ c.wordBits := Nat.pow_le_pow_right (by decide) c.eight_le
  rw [BitVec.toNat_ofNat, Nat.mod_eq_of_lt (Nat.lt_of_lt_of_le hn hbyte)]

/-- LDX with two digits writes their value (42_load_immediate.md R172). -/
theorem exec_ldx_of_digits {h l : Byte} {x y : Nat} (hx : hexval h = some x) (hy : hexval l = some y) (d : Reg)
    (s : State) : ∃ t, exec (.ldx d h l) s = .next t ∧ WritesOnly s t d (16 * x + y) := by
  have hvalue : 16 * x + y < 256 := by
    have := hexval_lt hx
    have := hexval_lt hy
    omega
  refine exec_writesOnly ?_ (toNat_ofNat_wordBits s.cfg hvalue)
  simp only [exec, execLdx, hexOperand_some hx hy]

/-! ## The instructions -/

/-- Settles O14: the two outcomes are those of the digit check, and the value of two digits fits in a byte. -/
theorem loadHexDigitsOrHalt : Obligations.LoadHexDigitsOrHalt := by
  refine ⟨?_, fun d h l s => ⟨fun x y hx hy => exec_ldx_of_digits hx hy d s, fun hbad => exec_ldx_of_bad_digit hbad d s⟩⟩
  intro hasMod p h l rest
  rw [decode_colon, decodeColon_ldx, takeRegByteByte]

/-- Settles O13: a word holds the byte that it is zero-extended from. -/
theorem loadLiteralByteIsVerbatim : Obligations.LoadLiteralByteIsVerbatim := by
  refine ⟨?_, fun d v s => exec_writesOnly rfl (toNat_literalOperand s.cfg.eight_le v)⟩
  intro hasMod p v rest
  rw [decode_colon, decodeColon_ldb, takeRegByte]

/-- Settles O15: the word written is the source register's own, of the machine's width. -/
theorem moveCopiesTheRegister : Obligations.MoveCopiesTheRegister := by
  refine ⟨?_, fun d src s => exec_writesOnly rfl (s.toNat_reg src)⟩
  intro hasMod p q rest
  rw [decode_colon, decodeColon_mov, takeReg2]

end Sys2Proof.Machine

end

section

/-! Proofs of the statements on the memory and port instructions (43_memory_port.md): the byte moved by a load or a
store, and what a port instruction does for each way in which its hook call can end. -/

namespace Sys2Proof.Machine

/-! ## Memory -/

/-- Settles O16: one byte fits in a word, so the word read is the byte's value. -/
theorem loadReadsTheByteAtTheWrappedAddress : Obligations.LoadReadsTheByteAtTheWrappedAddress :=
  ⟨encodes2_of_takeReg2 decode_ld,
    fun _ _ s => exec_writesOnly rfl (Memory.toNat_readLE_one _ _ _ _ s.cfg.eight_le)⟩

/-- Settles O17: a store of one byte writes one cell, and the Program Store is the one field that it updates. -/
theorem storeWritesOneByteAtTheWrappedAddress : Obligations.StoreWritesOneByteAtTheWrappedAddress := by
  refine ⟨encodes2_of_takeReg2 decode_st, fun a src s => ⟨_, rfl, rfl, ?_, fun k hk => ?_, fun _ _ => rfl,
    fun _ _ => rfl, ⟨rfl, rfl, rfl⟩, rfl, rfl⟩⟩
  · rw [State.memWrite_one, if_pos rfl, State.toNat_reg]
  · rw [State.memWrite_one, if_neg hk]

/-! ## Port slots (R183) -/

/-- A slot written with a word of the machine's own width holds it whole. -/
theorem State.portVal_setPort_word (s : State) (n : Port) (v : Word s.cfg.wordBits) :
    (s.setPort n v).portVal n = v.toNat := by
  rw [State.portVal_setPort, if_pos rfl, s.word_mod v]

/-- A slot the host writes a number into holds it modulo 2^W (00_scope.md R10). -/
theorem State.portVal_setPort_ofNat (s : State) (n : Port) (v : Nat) :
    (s.setPort n (BitVec.ofNat s.cfg.wordBits v)).portVal n = v % 2 ^ s.cfg.wordBits := by
  rw [State.portVal_setPort_word, BitVec.toNat_ofNat]

/-- A write of one slot leaves the others. -/
theorem State.setPort_samePortsBut (s : State) (n : Port) {w : Nat} (v : Word w) :
    SamePortsBut [n] s (s.setPort n v) := by
  intro m hm
  rw [State.portVal_setPort, if_neg (by simpa using hm)]

/-! ## The two port instructions, by how the hook call ends (R184 to R187) -/

/-- An installed read hook is called before the slot is read (R186). -/
theorem State.portRead_hook {s : State} (h : s.cfg.readHook = true) (n : Port) : s.portRead n = s.callReadHook n := by
  rw [State.portRead, if_pos h]

/-- IN whose hook call returned has, after the hook, the one effect of writing the slot's value to the destination. -/
theorem exec_inp_of_returned {s u : State} {p : Reg} (h : s.portRead (portIndex (s.reg p)) = .returned u) (d : Reg) :
    ∃ t, exec (.inp d p) s = .next t ∧ WritesOnly u t d (u.portVal (portIndex (s.reg p))) := by
  refine ⟨_, ?_, u.setReg_word d (u.port (portIndex (s.reg p)))⟩
  simp only [exec, execIn, h]

/-- IN whose hook never returns leaves the core as the hook found or made it (60_exceptions.md R228). -/
theorem exec_inp_of_blocked {s u : State} {p : Reg} (h : s.portRead (portIndex (s.reg p)) = .blocked u) (d : Reg) :
    exec (.inp d p) s = .next u := by
  simp only [exec, execIn, h]

/-- OUT does what the port write does, whether or not the hook returns. -/
theorem exec_out {s : State} {p src : Reg} {e : HookEnd} (h : s.portWrite (portIndex (s.reg p)) (s.reg src) = e) :
    exec (.out p src) s = .next e.state := by
  simp only [exec, execOut, h]
  cases e
  · rfl
  · rfl

/-! ## The statements -/

/-- Settles O18: the read hook's replies in turn; the destination is written from the state a returning hook left. -/
theorem portReadTakesTheSlotTheHookLeft : Obligations.PortReadTakesTheSlotTheHookLeft := by
  refine ⟨encodes2_of_takeReg2 decode_inp, fun d p s => ⟨rfl, fun hhook => ?_, fun hhook hreply => ?_,
    fun v hhook hreply => ?_, fun hhook hreply => ?_, fun v hhook hreply => ?_⟩⟩
  · exact exec_inp_of_returned (State.portRead_noHook hhook _) d
  all_goals
    have hcall := State.portRead_hook hhook (portIndex (s.reg p))
    simp only [State.callReadHook, hreply] at hcall
  · obtain ⟨t, ht, hvalue, hregs, hmem, hports, hcontrol, hsignals, hscript⟩ := exec_inp_of_returned hcall d
    exact ⟨t, ht, hvalue, hports, hregs, hmem, hcontrol, hsignals, hscript⟩
  · obtain ⟨t, ht, hvalue, hregs, hmem, hports, hcontrol, hsignals, hscript⟩ := exec_inp_of_returned hcall d
    have hslot := (s.enterHook (.aboutToRead (portIndex (s.reg p)))).portVal_setPort_ofNat (portIndex (s.reg p)) v
    exact ⟨t, ht, hvalue.trans hslot, (hports _ List.not_mem_nil).trans hslot,
      fun n hn => (hports n List.not_mem_nil).trans (State.setPort_samePortsBut (s.enterHook _) _ _ n hn),
      hregs, hmem, hcontrol, hsignals, hscript⟩
  · exact ⟨_, exec_inp_of_blocked hcall d, rfl, rfl, rfl, fun _ _ => rfl, fun _ => rfl, fun _ _ => rfl, rfl, rfl⟩
  · exact ⟨_, exec_inp_of_blocked hcall d, rfl, State.portVal_setPort_ofNat (s.enterHook _) _ v,
      State.setPort_samePortsBut (s.enterHook _) _ _, rfl, rfl, fun _ _ => rfl, fun _ => rfl, rfl, rfl⟩

/-- Settles O19: the slot is written before any hook call, and the call touches only the host side and `blockedIn`. -/
theorem portWriteStoresTheWordThenCallsTheHook : Obligations.PortWriteStoresTheWordThenCallsTheHook := by
  refine ⟨encodes2_of_takeReg2 decode_out, fun p src s => ⟨rfl, ?_⟩⟩
  have hslot := s.portVal_setPort_word (portIndex (s.reg p)) (s.reg src)
  have hothers := s.setPort_samePortsBut (portIndex (s.reg p)) (s.reg src)
  rcases s.portWrite_cases (portIndex (s.reg p)) (s.reg src) with
    ⟨hhook, h⟩ | ⟨hhook, hreply, h⟩ | ⟨hhook, hreply, h⟩
  all_goals refine ⟨_, exec_out h, hslot, hothers, fun _ _ => rfl, fun _ => rfl, rfl, rfl, ?_⟩
  · exact ⟨fun _ => ⟨⟨rfl, rfl⟩, rfl⟩, by simp [hhook]⟩
  · exact ⟨by simp [hhook], fun _ => ⟨⟨rfl, rfl⟩, (if_neg (Bool.eq_false_iff.mp hreply)).symm⟩⟩
  · exact ⟨by simp [hhook], fun _ => ⟨⟨rfl, rfl⟩, (if_pos hreply).symm⟩⟩

/-- Settles O20: both register values name the slot that OUT wrote, and without hooks nothing else is done to it. -/
theorem portWriteThenReadReturnsTheWord : Obligations.PortWriteThenReadReturnsTheWord := by
  intro p src d q s t hread hwrite h hslot
  obtain rfl : s.setPort (portIndex (s.reg p)) (s.reg src) = t :=
    Host.Outcome.next.inj ((exec_out (State.portWrite_noHook hwrite _ _)).symm.trans h)
  have hindex : portIndex ((s.setPort (portIndex (s.reg p)) (s.reg src)).reg q) = portIndex (s.reg p) := Fin.ext hslot
  obtain ⟨u, hu, hvalue, -⟩ := exec_inp_of_returned
    (State.portRead_noHook (s := s.setPort (portIndex (s.reg p)) (s.reg src)) hread _) d
  rw [hindex, State.portVal_setPort_word, State.toNat_reg] at hvalue
  exact ⟨u, hu, hvalue⟩

end Sys2Proof.Machine

end

section

/-! Proofs of the statements on control (44_control.md): the one effect of a jump, what a call pushes, what a return pops,
and that a return undoes a call. -/

namespace Sys2Proof

open Sys2Proof.Claims

/-! ## Formats F1 and FC (30_encoding.md R94) -/

theorem encodes1_of_takeReg1 {op : Byte} {f : Reg → Instr}
    (h : ∀ hasMod rest, decode hasMod (op :: rest) = takeReg1 f rest) : Encodes1 op f := by
  intro hasMod p rest
  rw [h, takeReg1]

theorem encodesJump_of_takeReg3 {c : Byte} {f : Reg → Reg → Reg → Instr}
    (h : ∀ rest, decodeQuestion (c :: rest) = takeReg3 f rest) : EncodesJump c f := by
  intro hasMod p q r rest
  rw [decode_question, h, takeReg3]

namespace Machine

/-! ## Jumps (44_control.md R200 to R205) -/

/-- Settles O25: the target is a word of the machine's own width, so pc takes it whole. -/
theorem jumpSetsPc : Obligations.JumpSetsPc :=
  ⟨encodes1_of_takeReg1 decode_jmp, fun r s => exec_writesOnly rfl (s.toNat_reg r)⟩

section Comparisons

variable {w : Nat} (u v : Word w)

theorem Cmp.eq_holds_iff : Cmp.eq.holds u v = true ↔ u.toNat = v.toNat := by
  rw [Cmp.holds, beq_iff_eq, BitVec.toNat_eq]

theorem Cmp.ne_holds_iff : Cmp.ne.holds u v = true ↔ u.toNat ≠ v.toNat := by
  rw [Cmp.holds, Bool.not_eq_true', beq_eq_false_iff_ne, BitVec.toNat_ne]

theorem Cmp.lt_holds_iff : Cmp.lt.holds u v = true ↔ u.toNat < v.toNat := decide_eq_true_iff

theorem Cmp.gt_holds_iff : Cmp.gt.holds u v = true ↔ u.toNat > v.toNat := decide_eq_true_iff

end Comparisons

/-- An instruction that jumps to a register's value where a comparison holds has at most that one effect on pc (R201). -/
theorem exec_jumpIf {i : Instr} {s : State} {c : Bool} {target : Reg} {p : Prop} [Decidable p]
    (hexec : exec i s = .next (s.jumpIf c (s.reg target))) (hc : c = true ↔ p) :
    ∃ t, exec i s = .next t ∧ WritesOnly s t pcReg (if p then s.x target else s.x pcReg) := by
  have hjump := s.jumpIf_writesOnly c (s.reg target)
  rw [State.toNat_reg, State.x_mod, if_congr hc rfl rfl] at hjump
  exact ⟨_, hexec, hjump⟩

/-- Settles O26: the four comparisons of words are those of their unsigned integers. -/
theorem conditionalJumpComparesUnsigned : Obligations.ConditionalJumpComparesUnsigned := by
  refine ⟨encodesJump_of_takeReg3 decodeQuestion_jeq, encodesJump_of_takeReg3 decodeQuestion_jne,
    encodesJump_of_takeReg3 decodeQuestion_jlt, encodesJump_of_takeReg3 decodeQuestion_jgt, ?_⟩
  intro a b target s
  exact ⟨exec_jumpIf rfl (Cmp.eq_holds_iff _ _), exec_jumpIf rfl (Cmp.ne_holds_iff _ _),
    exec_jumpIf rfl (Cmp.lt_holds_iff _ _), exec_jumpIf rfl (Cmp.gt_holds_iff _ _)⟩

/-! ## The stack (20_memory.md R67, R68) -/

/-- Registers kept by two changes, one after the other. -/
theorem SameRegsBut.trans {ds es : List Reg} {s u t : State} (hsu : SameRegsBut ds s u) (hut : SameRegsBut es u t) :
    SameRegsBut (es ++ ds) s t := by
  intro r hr
  rw [List.mem_append, not_or] at hr
  obtain ⟨hes, hds⟩ := hr
  rw [hut r hes, hsu r hds]

theorem State.push_sameRegsBut (s : State) {w : Nat} (v : Word w) : SameRegsBut [spReg] s (s.push v) := by
  intro r hr
  rw [State.push_x, if_neg (by simpa using hr)]

theorem State.popState_sameRegsBut (s : State) : SameRegsBut [spReg] s s.popState := by
  intro r hr
  rw [State.popState_x, if_neg (by simpa using hr)]

/-- A pop moves sp back to where it was before a push. -/
theorem State.pushedSp_add_stackBytes (s : State) :
    (s.pushedSp.toNat + s.cfg.wordBits / 8) % 2 ^ s.cfg.wordBits = s.x spReg := by
  have hback : s.pushedSp + BitVec.ofNat s.cfg.wordBits s.cfg.stackBytes = s.sp := BitVec.sub_add_cancel ..
  rw [← s.toNat_sp, ← hback, BitVec.toNat_add, BitVec.toNat_ofNat, Nat.add_mod_mod, Config.stackBytes]

/-- The bytes of a word are its value. -/
theorem State.littleEndian_byteOf_x (s : State) (r : Reg) :
    littleEndian (byteOf (s.x r)) (s.cfg.wordBits / 8) = s.x r := by
  have hpow : 256 ^ (s.cfg.wordBits / 8) = 2 ^ s.cfg.wordBits := by
    rw [← s.cfg.eight_mul_stackBytes, Nat.mul_div_cancel_left _ (by decide), Nat.pow_mul]
  rw [littleEndian_byteOf, hpow, State.x_mod]

/-- Addresses less than the store's size apart wrap to different bytes (20_memory.md R61). -/
theorem wrapped_ne_of_lt {size a k j : Nat} (hkj : k < j) (hj : j < size) : (a + j) % size ≠ (a + k) % size := by
  intro hsame
  have hjk : j ≡ k [MOD size] := Nat.ModEq.add_left_cancel' a hsame
  exact Nat.ne_of_gt hkj (hjk.eq_of_lt_of_lt hj (hkj.trans hj))

/-! ## Call and return (R206, R207) -/

/-- Settles O27: the push moves sp and stores the word, then one register write sets pc; the target is read in the state
before both. -/
theorem callPushesTheReturnAddress : Obligations.CallPushesTheReturnAddress := by
  refine ⟨encodes1_of_takeReg1 decode_call, fun r s => ?_⟩
  obtain ⟨hpc, hregs, -⟩ := (s.push s.pc).setReg_word pcReg (s.reg r)
  refine ⟨_, rfl, hpc, ?_, s.pushedSp_toNat, (s.push_sameRegsBut s.pc).trans hregs, fun k hk hlast => ?_,
    fun a ha => ?_, fun _ _ => rfl, ⟨rfl, rfl, rfl⟩, rfl, rfl⟩
  · exact (hregs spReg (by decide)).trans (by rw [State.push_x, if_pos rfl])
  · exact (Memory.read_writeLE _ _ _ s.pc s.cfg.stackBytes k hk hlast).trans (extractByte_eq_byteOf _ _)
  · exact Memory.read_writeLE_other _ _ _ s.pc s.cfg.stackBytes a ha

/-- Settles O28: the pop reads the word at sp and moves sp, then one register write sets pc. -/
theorem returnPopsWhateverIsAtSp : Obligations.ReturnPopsWhateverIsAtSp := by
  refine ⟨fun _ rest => decode_ret _ rest, fun s => ?_⟩
  obtain ⟨hpc, hregs, -⟩ := s.popState.setReg_word pcReg s.popValue
  refine ⟨_, rfl, hpc.trans s.popValue_toNat, ?_, s.popState_sameRegsBut.trans hregs, fun _ => rfl, fun _ _ => rfl,
    ⟨rfl, rfl, rfl⟩, rfl, rfl⟩
  exact (hregs spReg (by decide)).trans (by rw [State.popState_x, if_pos rfl])

/-- Settles O29: by what a call pushes and what a return pops. The pushed bytes stand at different addresses, since the
stack word fits the store, so that the word popped is the return address, byte for byte. -/
theorem returnComesBackToTheCall : Obligations.ReturnComesBackToTheCall := by
  intro r s t t' hfit hcall hcfg hsp hbytes
  obtain ⟨t₀, hcall₀, -, htsp, -, -, hpushed, -, -, ⟨htcfg, -, -⟩, -⟩ := callPushesTheReturnAddress.2 r s
  obtain rfl : t₀ = t := Host.Outcome.next.inj (hcall₀.symm.trans hcall)
  obtain ⟨u, hret, hpc, husp, hregs, hmem, -⟩ := returnPopsWhateverIsAtSp.2 t'
  rw [htcfg, htsp] at hbytes
  rw [hcfg, htcfg, hsp, htsp] at hpc husp
  have hword : ∀ k, k < s.cfg.wordBits / 8 →
      t'.mem.read ((s.pushedSp.toNat + k) % s.cfg.memSize) = byteOf (s.x pcReg) k := by
    intro k hk
    rw [hbytes k hk]
    exact hpushed k hk fun j hkj hj => wrapped_ne_of_lt hkj (hj.trans_le hfit)
  refine ⟨u, hret, ?_, husp.trans s.pushedSp_add_stackBytes, hregs, hmem⟩
  rw [hpc, littleEndian_congr hword, State.littleEndian_byteOf_x]

end Machine

end Sys2Proof

end

section

/-! Proofs of the statements on exceptions (60_exceptions.md): no instruction and no step faults, and a core in a hook
that never returns stays there. -/

namespace Sys2Proof

namespace Machine

/-! ## No fault outcome (R220) -/

/-- Each instruction answers a next state: LDX with and without two digits, IN and OUT whether or not the hook returns,
and every other one in its single outcome. -/
theorem exec_answers (i : Instr) (s : State) : ∃ t, exec i s = .next t := by
  cases i with
  | ldx d h l =>
    rw [exec, execLdx]
    cases hexOperand h l with
    | none => exact ⟨s.halt, rfl⟩
    | some v => exact ⟨_, rfl⟩
  | inp d p =>
    rw [exec, execIn]
    cases s.portRead (portIndex (s.reg p)) with
    | returned t => exact ⟨_, rfl⟩
    | blocked t => exact ⟨t, rfl⟩
  | out p src =>
    rw [exec, execOut]
    cases s.portWrite (portIndex (s.reg p)) (s.reg src) with
    | returned t => exact ⟨t, rfl⟩
    | blocked t => exact ⟨t, rfl⟩
  | _ => exact ⟨_, rfl⟩

/-- Settles O38: every instruction answers, and a step ends in the state that the listing gives. -/
theorem everyStepAnswersANextState : Obligations.EveryStepAnswersANextState :=
  ⟨exec_answers, fun s => ⟨listingStep s, stepIsTheListing s⟩⟩

/-! ## A hook that never returns (R228) -/

theorem State.stopped_of_blockedIn {s : State} {c : HookCall} (hc : s.blockedIn = some c) : s.stopped = true := by
  rw [State.stopped, hc, Option.isSome_some, Bool.or_true]

/-- A core that is not halted and whose step answers the same state uses up any fuel where it stands. -/
theorem run_of_step_eq_self {s : State} (hs : s.halted = false) (hstep : step s = .next s) (n : Nat) :
    run n s = .next (.running s) := by
  induction n with
  | zero => rw [run, runEndAt, hs]; rfl
  | succ n ih => rw [run_succ_of_running hs hstep, ih]

/-- Settles O48: in a hook no step is taken, and by the invariant HALTED is 0 there, so that no fuel ends the run. -/
theorem coreInAHookThatNeverReturnsIsStuck : Obligations.CoreInAHookThatNeverReturnsIsStuck := by
  intro s c n hinv hc
  obtain ⟨-, -, hhook⟩ := hinv
  obtain ⟨hhalted, -, -⟩ := hhook c hc
  have hstep := step_of_stopped (State.stopped_of_blockedIn hc)
  exact ⟨hstep, hhalted, run_of_step_eq_self hhalted hstep n⟩

end Machine

end Sys2Proof

end

section

/-! Proofs of the statements on reset and the host (70_reset_and_hazards.md): the state that `init` leaves, the
invariant there, and what a host action reaches. -/

namespace Sys2Proof.Machine

/-! ## The state that `init` leaves (R250) -/

@[simp] theorem State.init_cfg (s : State) (buffer : Memory) : (s.init buffer).cfg = s.cfg := rfl
@[simp] theorem State.init_mem (s : State) (buffer : Memory) : (s.init buffer).mem = buffer := rfl
@[simp] theorem State.init_halted (s : State) (buffer : Memory) : (s.init buffer).halted = false := rfl
@[simp] theorem State.init_blockedIn (s : State) (buffer : Memory) : (s.init buffer).blockedIn = none := rfl
@[simp] theorem State.init_signals (s : State) (buffer : Memory) : (s.init buffer).signals = s.signals := rfl

/-- `init` leaves sp at the top of the buffer, modulo 2^W, and every other register 0. -/
@[simp] theorem State.init_x (s : State) (buffer : Memory) (r : Reg) :
    (s.init buffer).x r = if r = spReg then s.cfg.memSize % 2 ^ s.cfg.wordBits else 0 := by
  simp only [State.x, State.reg, State.init, Vector.getElem_set, Vector.getElem_replicate, Fin.ext_iff, eq_comm]
  split
  · exact BitVec.toNat_ofNat ..
  · rfl

/-- `init` leaves every port slot 0. -/
@[simp] theorem State.init_portVal (s : State) (buffer : Memory) (n : Port) : (s.init buffer).portVal n = 0 := by
  simp [State.portVal, State.port, State.init]

/-- Settles O49: the registers and the ports by their values, and the other fields as `init` writes or keeps them. -/
theorem initLeavesTheStatedState : Obligations.InitLeavesTheStatedState := fun s buffer =>
  ⟨s.init_x buffer, s.init_portVal buffer, s.init_halted buffer, s.init_mem buffer,
    s.init_cfg buffer, s.init_signals buffer⟩

/-! ## The invariant after reset (R250, 10_state.md R47) -/

/-- `init` ends in no hook, so that the invariant asks of the buffer alone that it is a store in canonical form. -/
theorem State.init_inv_iff (s : State) (buffer : Memory) :
    (s.init buffer).Inv ↔ buffer.wf ∧ buffer.within s.cfg.memSize :=
  State.inv_iff_of_blockedIn_eq_none (s.init_blockedIn buffer)

/-- Settles O43: reset is `init` of an empty store, which is in canonical form and lists no address. -/
theorem resetMeetsTheInvariant : Obligations.ResetMeetsTheInvariant := by
  refine ⟨?_, fun s buffer hwf hwithin => (s.init_inv_iff buffer).mpr ⟨hwf, hwithin⟩⟩
  obtain ⟨hreset, -⟩ := resetIsInitOfAZeroStore
  rw [hreset, State.init_inv_iff]
  exact ⟨Memory.wf_nil, by simp⟩

/-! ## The effects of the host's actions (R252, R253) -/

/-- One byte loaded at an address of the store is one write (20_memory.md R60). -/
theorem Memory.load_singleton {size a : Nat} (ha : a < size) (m : Memory) (b : Byte) :
    m.load size a [b] = m.write a b := by
  rw [Memory.load, if_pos ha, Memory.load]

/-- The host's write of a byte of the store changes that cell alone. -/
theorem State.hostEffect_writeByte_read {s : State} {a : Nat} (ha : a < s.cfg.memSize) (b : Byte) (k : Nat) :
    (s.hostEffect (.writeByte a b)).mem.read k = if k = a then b else s.mem.read k := by
  rw [State.hostEffect, Memory.load_singleton ha, Memory.read_write]

/-- The host's write of a register has one effect, the value modulo 2^W in that register. -/
theorem State.hostEffect_writeReg_writesOnly (s : State) (r : Reg) (v : Nat) :
    WritesOnly s (s.hostEffect (.writeReg r v)) r (v % 2 ^ s.cfg.wordBits) := by
  have h := s.setReg_word r (BitVec.ofNat s.cfg.wordBits v)
  rwa [BitVec.toNat_ofNat] at h

/-- No effect but that of `init` touches HALTED. -/
theorem State.hostEffect_halted (s : State) {act : HostAction} (hinit : ∀ buffer, act ≠ .init buffer) :
    (s.hostEffect act).halted = s.halted := by
  cases act with
  | writeReg | writePort | writeByte | load => rfl
  | init buffer => exact absurd rfl (hinit buffer)

/-- No host action but `init` touches HALTED: in a hook it does nothing, and between steps it has its effect. -/
theorem State.hostAct_halted (s : State) {act : HostAction} (hinit : ∀ buffer, act ≠ .init buffer) :
    (s.hostAct act).halted = s.halted := by
  cases hblocked : s.blockedIn with
  | none => rw [State.hostAct_between hblocked, s.hostEffect_halted hinit]
  | some c => rw [State.hostAct_inHook hblocked]

/-- Settles O51: between steps each write is one update of the register file, the ports or the store. -/
theorem hostWritesReachOnlyTheirTarget : Obligations.HostWritesReachOnlyTheirTarget := by
  refine fun s => ⟨fun hbetween => ?_, fun _ hinit => s.hostAct_halted hinit,
    fun _ act hc => State.hostAct_inHook hc act⟩
  simp only [State.hostAct_between hbetween]
  refine ⟨s.hostEffect_writeReg_writesOnly, fun n v => ?_, fun a b ha => ?_⟩
  · exact ⟨s.portVal_setPort_ofNat n v, s.setPort_samePortsBut n _, fun _ _ => rfl, fun _ => rfl,
      ⟨rfl, rfl, rfl⟩, rfl, rfl⟩
  · refine ⟨?_, fun k hk => ?_, fun _ _ => rfl, fun _ _ => rfl, ⟨rfl, rfl, rfl⟩, rfl, rfl⟩
    · rw [State.hostEffect_writeByte_read ha, if_pos rfl]
    · rw [State.hostEffect_writeByte_read ha, if_neg hk]

end Sys2Proof.Machine

end
